-- ==== Sys2Proof/Word.lean ====
section
/-! DEFINITION. The word type of the register window and the fixed widths of the DES stages (spec 00_scope.md R7). -/

namespace Sys2Proof

/-- A 64-bit register or block value: KEY, DIN, DOUT, CMD, STATUS (R7, R30). -/
abbrev Word := BitVec 64

/-- One byte of a host message (R66, R261). -/
abbrev Byte := BitVec 8

/-- A Feistel half L or R, an S-box stage output, a P output: 32 bits (R7). -/
abbrev Half := BitVec 32

/-- A round subkey, an expansion output, an S-box stage input: 48 bits (R7). -/
abbrev Subkey := BitVec 48

/-- A key-schedule half C or D: 28 bits (R7). -/
abbrev KeyHalf := BitVec 28

/-- A PC-1 output, a key-schedule intermediate C‖D: 56 bits (R7). -/
abbrev KeyState := BitVec 56

end Sys2Proof
end

