-- ==== Sys2Proof/Config.lean ====
section
/-! DEFINITION. What one implementation fixes and the spec leaves open: the two named parameters of 00_scope.md R9.
Neither has a body, so no proof can see a value of it. -/

namespace Sys2Proof.Config

/-- Which 64-byte-aligned window of the host's address space DESE occupies (R9, R61). Open: a free value. -/
opaque windowIndex : Nat

/-- `DESE_BASE` (R9): the host address of byte offset 0 of the register window, 64-byte aligned by construction. -/
def deseBase : Nat := 64 * windowIndex

/-- `DESE_LATENCY` (R9, R244): how many host steps pass between the acceptance of a command and its completion, for the
`n`-th command accepted whose latency no input of the run supplies. Open: a free value, finite because it is a number. -/
opaque latency : Nat → Nat

end Sys2Proof.Config
end

