-- ==== Sys2Proof/Syntax.lean ====
section
/-! DEFINITION. The 17 commands of the opcode map (spec 30_encoding.md R93), one constructor per row of the opcode table. -/

namespace Sys2Proof

/-- A DESE command. A format-I command carries its index IDX as the number the host writes (R92, R101); the word that
encodes it has room for 0..15 only, which `Instr.wellFormed` checks. -/
inductive Instr where
  /-- NOP, no operation (R250). -/
  | nop
  /-- KEYLOAD, run the key schedule on KEY (R190). -/
  | keyload
  /-- KEYCLR, discard the schedule (R195). -/
  | keyclr
  /-- CLRERR, clear the error field (R251). -/
  | clrerr
  /-- ENC, encrypt one block (R220). -/
  | enc
  /-- DEC, decrypt one block (R221). -/
  | dec
  /-- PERM_IP, the initial permutation (R130). -/
  | permIp
  /-- PERM_FP, the final permutation (R131). -/
  | permFp
  /-- PERM_E, the expansion permutation (R132). -/
  | permE
  /-- PERM_P, the P-box permutation (R133). -/
  | permP
  /-- PERM_PC1, permuted choice 1 (R134). -/
  | permPc1
  /-- PERM_PC2, permuted choice 2 (R135). -/
  | permPc2
  /-- SBOX, the substitution engine (R175). -/
  | sbox
  /-- KSROT, one round's rotation of C‖D (R193). -/
  | ksrot (idx : Nat)
  /-- FFUNC, the round function with SK[idx] (R222). -/
  | ffunc (idx : Nat)
  /-- ROUND, one Feistel round with SK[idx] (R223). -/
  | round (idx : Nat)
  /-- SKREAD, read SK[idx] (R194). -/
  | skread (idx : Nat)
  deriving DecidableEq, Repr

end Sys2Proof
end

