-- ==== Sys2Proof/WellFormed.lean ====
section
/-! DEFINITION. Which command terms have a command word: a format-I index is 0..15 (spec 30_encoding.md R92, R101). -/

namespace Sys2Proof

/-- "An index outside 0..15 is an assembly error: no word is produced" (R101). A format-Z command has no operand (R91). -/
def Instr.wellFormed : Instr → Bool
  | .nop | .keyload | .keyclr | .clrerr => true
  | .enc | .dec => true
  | .permIp | .permFp | .permE | .permP | .permPc1 | .permPc2 => true
  | .sbox => true
  | .ksrot idx | .ffunc idx | .round idx | .skread idx => decide (idx < 16)

end Sys2Proof
end

