-- ==== Sys2Proof/Decode.lean ====
section
/-! DEFINITION. The error codes (spec 60_exceptions.md R301), the command word's decoder, total on every 64-bit word
(30_encoding.md R90–R95), and after it the encoder (R101). -/

namespace Sys2Proof

/-- The causes a rejected or dropped host write reports (R301). -/
inductive ErrCode where
  /-- ILLEGAL: an OPC that is not in the opcode map (R306). -/
  | illegal
  /-- RESERVED: an assigned OPC with a non-zero must-be-zero bit (R307). -/
  | reserved
  /-- NOKEY: a command that reads SK while KEY_VALID = 0 (R304). -/
  | noKey
  /-- BUSY: any host write while BUSY = 1 (R305). -/
  | busy
  deriving DecidableEq, Repr

/-- The 4-bit code STATUS.ERR records for a cause (R301). Code 0x0 is "no error recorded". -/
def ErrCode.code : ErrCode → BitVec 4
  | .illegal => 1
  | .reserved => 2
  | .noKey => 3
  | .busy => 4

/-- The two word formats (R91): Z has no operand field, I has the index IDX in bits 11:8. -/
inductive Format where
  | z
  | i
  deriving DecidableEq, Repr

/-- The format of each command (R93). -/
def formatOf : Instr → Format
  | .nop | .keyload | .keyclr | .clrerr | .enc | .dec => .z
  | .permIp | .permFp | .permE | .permP | .permPc1 | .permPc2 | .sbox => .z
  | .ksrot _ | .ffunc _ | .round _ | .skread _ => .i

/-- The OPC field, bits 7:0 of a command word (R90). -/
def opcField (w : Word) : BitVec 8 := w.extractLsb' 0 8

/-- The IDX field, bits 11:8 of a command word, an unsigned number 0..15 (R90, R92). -/
def idxField (w : Word) : Nat := (w.extractLsb' 8 4).toNat

/-- The command an OPC selects, with the index `idx` where its format has one; `none` for the 239 unassigned values
(R93, R95). -/
def lookup (opc : BitVec 8) (idx : Nat) : Option Instr :=
  match opc with
  | 0x00#8 => some .nop
  | 0x01#8 => some .keyload
  | 0x02#8 => some .keyclr
  | 0x03#8 => some .clrerr
  | 0x10#8 => some .enc
  | 0x11#8 => some .dec
  | 0x20#8 => some .permIp
  | 0x21#8 => some .permFp
  | 0x22#8 => some .permE
  | 0x23#8 => some .permP
  | 0x24#8 => some .permPc1
  | 0x25#8 => some .permPc2
  | 0x26#8 => some .sbox
  | 0x27#8 => some (.ksrot idx)
  | 0x30#8 => some (.ffunc idx)
  | 0x31#8 => some (.round idx)
  | 0x32#8 => some (.skread idx)
  | _ => none

/-- The must-be-zero bits of a format are all zero: bits 63:8 for Z, bits 63:12 for I (R91). -/
def reservedZero (fmt : Format) (w : Word) : Bool :=
  match fmt with
  | .z => w.extractLsb' 8 56 == 0
  | .i => w.extractLsb' 12 52 == 0

/-- Decoding a command word (R94): OPC is examined first, so an unassigned OPC is ILLEGAL whatever the other bits hold;
an assigned OPC with a non-zero must-be-zero bit is RESERVED. -/
def decode (w : Word) : Except ErrCode Instr :=
  match lookup (opcField w) (idxField w) with
  | none => .error .illegal
  | some i => if reservedZero (formatOf i) w then .ok i else .error .reserved

/-- The instruction the decoder reads from a table word of `nbits` bits; the bits above `nbits` are zero. A command word
has 64 bits (R98), so no longer word is one. -/
def decodeTableWord (nbits w : Nat) : Option Instr :=
  if nbits ≤ 64 then
    match decode (BitVec.ofNat 64 (w % 2 ^ nbits)) with
    | .ok i => some i
    | .error _ => none
  else none

/-- The OPC of each command (R93). -/
def opcodeOf : Instr → BitVec 8
  | .nop => 0x00
  | .keyload => 0x01
  | .keyclr => 0x02
  | .clrerr => 0x03
  | .enc => 0x10
  | .dec => 0x11
  | .permIp => 0x20
  | .permFp => 0x21
  | .permE => 0x22
  | .permP => 0x23
  | .permPc1 => 0x24
  | .permPc2 => 0x25
  | .sbox => 0x26
  | .ksrot _ => 0x27
  | .ffunc _ => 0x30
  | .round _ => 0x31
  | .skread _ => 0x32

/-- The index operand of a format-I command; format Z has none and its bits 11:8 are zero (R91). -/
def indexOf : Instr → Nat
  | .ksrot idx | .ffunc idx | .round idx | .skread idx => idx
  | .nop | .keyload | .keyclr | .clrerr | .enc | .dec => 0
  | .permIp | .permFp | .permE | .permP | .permPc1 | .permPc2 | .sbox => 0

/-- The command word of a well-formed command: `zext64(IDX ‖ OPC)` (R91, R101). -/
def encode (i : Instr) : Word := (BitVec.ofNat 4 (indexOf i) ++ opcodeOf i).setWidth 64

/-- The assembler `asm(m)` (R101): an index outside 0..15 produces no word. -/
def asm (i : Instr) : Option Word := if i.wellFormed then some (encode i) else none

end Sys2Proof
end

