-- ==== Sys2Proof/Machine/HostProgram.lean ====
section
/-! DEFINITION. The host's side of the machine as syntax: the slots of the register window (spec 10_state.md R30,
20_memory.md R61) and the host notation the spec's programs are written in (30_encoding.md R99–R107). -/

namespace Sys2Proof.Machine

/-- The eight 64-bit slots of the register window (R30). -/
inductive Slot where
  | key
  | din
  | dout
  | cmd
  | status
  | rsv5
  | rsv6
  | rsv7
  deriving DecidableEq, Repr

/-- A slot's number; its byte offset is eight times that (R30, R61). -/
def Slot.number : Slot → Nat
  | .key => 0
  | .din => 1
  | .dout => 2
  | .cmd => 3
  | .status => 4
  | .rsv5 => 5
  | .rsv6 => 6
  | .rsv7 => 7

/-- The slot a 3-bit number `off[5:3]` names (R61). -/
def Slot.ofNumber : Fin 8 → Slot
  | 0 => .key
  | 1 => .din
  | 2 => .dout
  | 3 => .cmd
  | 4 => .status
  | 5 => .rsv5
  | 6 => .rsv6
  | 7 => .rsv7

/-- What a host address names (R61, R63). -/
inductive BusTarget where
  /-- Not an address of the window: not DESE's access (R61). -/
  | outside
  /-- In the window, but `off[2:0] ≠ 0` (R63). -/
  | misaligned
  /-- The slot `off[5:3]` (R61). -/
  | slot (r : Slot)
  deriving DecidableEq, Repr

/-- Address decoding for a window at `base` (R61). -/
def decodeAddress (base addr : Nat) : BusTarget :=
  if addr < base ∨ base + 64 ≤ addr then .outside
  else
    let off := addr - base
    if off % 8 ≠ 0 then .misaligned
    else .slot (Slot.ofNumber (Fin.ofNat 8 (off / 8)))

/-- The host address of a slot for a window at `base`: `base + 8*slot` (R99, R323). -/
def slotAddress (base : Nat) (r : Slot) : Nat := base + 8 * r.number

/-- The value operand of `WR`: "a 64-bit literal or a host variable" (R100). -/
inductive Src where
  | lit (v : Word)
  | var (n : Fin 8)
  deriving DecidableEq, Repr

/-- Host expressions (R103): literals, host variables, `⊕ & |`, the logical shifts, slice and concatenation. -/
inductive HExpr where
  | lit (v : Word)
  | var (n : Fin 8)
  | xor (a b : HExpr)
  | and (a b : HExpr)
  | or (a b : HExpr)
  | shl (a b : HExpr)
  | shr (a b : HExpr)
  | slice (a : HExpr) (hi lo : Nat)
  | cat (a b : HExpr)
  deriving DecidableEq, Repr

/-- The width of an expression's value (R12, R14); `none` where the operands do not fit: a bitwise operator on unequal
widths, a slice outside its operand. -/
def HExpr.width : HExpr → Option Nat
  | .lit _ => some 64
  | .var _ => some 64
  | .xor a b | .and a b | .or a b =>
    match a.width, b.width with
    | some m, some n => if m = n then some m else none
    | _, _ => none
  | .shl a b | .shr a b =>
    match a.width, b.width with
    | some m, some _ => some m
    | _, _ => none
  | .slice a hi lo =>
    match a.width with
    | some m => if lo ≤ hi ∧ hi < m then some (hi - lo + 1) else none
    | none => none
  | .cat a b =>
    match a.width, b.width with
    | some m, some n => some (m + n)
    | _, _ => none

/-- An expression's value as a number, always below two to the power of its width (R12, R14, R103). -/
def HExpr.eval (h : Vector Word 8) : HExpr → Nat
  | .lit v => v.toNat
  | .var n => h[n].toNat
  | .xor a b => a.eval h ^^^ b.eval h
  | .and a b => a.eval h &&& b.eval h
  | .or a b => a.eval h ||| b.eval h
  | .shl a b =>
    let w := a.width.getD 0
    if b.eval h < w then (a.eval h <<< b.eval h) % 2 ^ w else 0
  | .shr a b => if b.eval h < a.width.getD 0 then a.eval h >>> b.eval h else 0
  | .slice a hi lo => (a.eval h >>> lo) % 2 ^ (hi - lo + 1)
  | .cat a b => a.eval h * 2 ^ b.width.getD 0 + b.eval h

/-- Conditions of `ASSERT` and `UNTIL` (R103): equations between expressions, and their Boolean combinations.
[DESIGN CHOICE: the spec gives conditions by example only; log entry 12.] -/
inductive Cond where
  | eq (a b : HExpr)
  | not (c : Cond)
  | and (c d : Cond)
  | or (c d : Cond)
  deriving DecidableEq, Repr

/-- Every expression of the condition has a width. -/
def Cond.wellFormed : Cond → Bool
  | .eq a b => a.width.isSome && b.width.isSome
  | .not c => c.wellFormed
  | .and c d | .or c d => c.wellFormed && d.wellFormed

/-- Whether the condition holds; an equation compares the values as numbers, as in `h7[0] = 0` (R105). -/
def Cond.eval (h : Vector Word 8) : Cond → Bool
  | .eq a b => a.eval h == b.eval h
  | .not c => !c.eval h
  | .and c d => c.eval h && d.eval h
  | .or c d => c.eval h || d.eval h

/-- The four format-I commands (R93), whose index a `FOR` variable may give (R103). -/
inductive IndexedCmd where
  | ksrot
  | ffunc
  | round
  | skread
  deriving DecidableEq, Repr

/-- The command with its index. -/
def IndexedCmd.at (c : IndexedCmd) (idx : Nat) : Instr :=
  match c with
  | .ksrot => .ksrot idx
  | .ffunc => .ffunc idx
  | .round => .round idx
  | .skread => .skread idx

/-- Host statements (R100–R103), and the raw bus primitives of R17 that `WR` and `RD` stand for. -/
inductive HostStmt where
  /-- No statement. -/
  | skip
  /-- Two statements in order. -/
  | seq (a b : HostStmt)
  /-- `WR reg, v` (R100). -/
  | wr (r : Slot) (v : Src)
  /-- `RD hN, reg` (R100). -/
  | rd (n : Fin 8) (r : Slot)
  /-- `MemWrite(addr, width, v)` at any host address and width in bytes (R17, R62, R63). -/
  | memWrite (addr width : Nat) (v : Src)
  /-- `hN <- MemRead(addr, width)` (R17, R62, R63). -/
  | memRead (n : Fin 8) (addr width : Nat)
  /-- `CMD m` (R102). -/
  | cmd (i : Instr)
  /-- `CMD m x` with the `FOR` variable `x` as the index of a format-I command (R103). -/
  | cmdVar (c : IndexedCmd) (x : Nat)
  /-- `hN <- expr` (R103). -/
  | assign (n : Fin 8) (e : HExpr)
  /-- `ASSERT cond` (R103). -/
  | assert (c : Cond)
  /-- `FOR x IN a..b { body }` (R103). -/
  | forLoop (x a b : Nat) (body : HostStmt)
  /-- `LOOP { body } UNTIL cond` (R103). -/
  | loopUntil (body : HostStmt) (c : Cond)
  /-- The point after an iteration of `LOOP { body } UNTIL cond` where the condition is looked at (R103). -/
  | untilCheck (body : HostStmt) (c : Cond)
  deriving DecidableEq, Repr

/-- The body of a `FOR` for one value `i` of its variable `x`; an inner `FOR` over the same variable hides it (R103). -/
def HostStmt.subst (x i : Nat) : HostStmt → HostStmt
  | .skip => .skip
  | .seq a b => .seq (a.subst x i) (b.subst x i)
  | .wr r v => .wr r v
  | .rd n r => .rd n r
  | .memWrite addr width v => .memWrite addr width v
  | .memRead n addr width => .memRead n addr width
  | .cmd m => .cmd m
  | .cmdVar c y => if y = x then .cmd (c.at i) else .cmdVar c y
  | .assign n e => .assign n e
  | .assert c => .assert c
  | .forLoop y a b body => if y = x then .forLoop y a b body else .forLoop y a b (body.subst x i)
  | .loopUntil body c => .loopUntil (body.subst x i) c
  | .untilCheck body c => .untilCheck (body.subst x i) c

/-- The condition `hN[b] = v` on one bit of a host variable, as the pseudo-instructions use it (R105, R106). -/
def bitIs (n : Fin 8) (b : Nat) (v : Word) : Cond := .eq (.slice (.var n) b b) (.lit v)

/-- `WAIT`: poll STATUS into h7 until BUSY = 0 (R105). -/
def HostStmt.wait : HostStmt := .loopUntil (.rd 7 .status) (bitIs 7 0 0)

/-- `RUN m`: `CMD m; WAIT; ASSERT h7[1] = 1` (R106). -/
def HostStmt.run (i : Instr) : HostStmt := .seq (.cmd i) (.seq .wait (.assert (bitIs 7 1 1)))

/-- `RUN m x` with a `FOR` variable as the index (R103, R106). -/
def HostStmt.runVar (c : IndexedCmd) (x : Nat) : HostStmt :=
  .seq (.cmdVar c x) (.seq .wait (.assert (bitIs 7 1 1)))

/-- `SETKEY k`: `WR KEY, k; RUN KEYLOAD`, with a literal or a host variable as the key, as `WR` takes (R107, R100). -/
def HostStmt.setkey (k : Src) : HostStmt := .seq (.wr .key k) (.run .keyload)

end Sys2Proof.Machine
end

