-- ==== Sys2Proof/Machine/State.lean ====
section
/-! DEFINITION. The machine's state as plain data: the DESE registers and its in-flight record (spec 10_state.md R30–R47),
the host agent (00_scope.md R21, 30_encoding.md R99), and the inputs from outside that choose the interleaving
(44_control.md R244) and assert reset (70_reset_and_hazards.md R341). -/

namespace Sys2Proof.Machine

/-- The in-flight record `some(op, idx, key, din)` of R44: the accepted command and the operands captured with it. -/
structure InFlight where
  cmd : Instr
  key : Word
  din : Word
  deriving DecidableEq, Repr

/-- The whole machine. The first nine fields are R47's record; the next two are the host agent; the last four are the
inputs and counters by which the step settles what the spec leaves to the schedule and the platform. -/
structure State where
  /-- KEY, slot 0 (R32). -/
  key : Word
  /-- DIN, slot 1 (R33). -/
  din : Word
  /-- DOUT, slot 2 (R34). -/
  dout : Word
  /-- STATUS.BUSY (R37). -/
  busy : Bool
  /-- STATUS.DONE (R38). -/
  done : Bool
  /-- STATUS.KEY_VALID (R39). -/
  keyValid : Bool
  /-- STATUS.ERR (R40). -/
  err : BitVec 4
  /-- The subkey file SK[0..15] (R42). -/
  sk : Vector Subkey 16
  /-- INFLIGHT (R44). -/
  inflight : Option InFlight
  /-- The host-local variables h0..h7 (R99). -/
  hostVars : Vector Word 8
  /-- What is left of the host's program, the next statement first (R21, R103). -/
  program : List HostStmt
  /-- Host steps left before the in-flight command completes (R244). The model's own field. -/
  wait : Nat
  /-- Latencies the outside supplies for the next commands accepted, in order (R9, R244). The model's own field. -/
  latencies : List Nat
  /-- Commands accepted so far: the argument of the free value `Config.latency`. The model's own field. -/
  draws : Nat
  /-- When the platform asserts reset: steps before the next assertion, then between it and the one after it, and so on
  (R341). The model's own field. -/
  resets : List Nat
  deriving DecidableEq, Repr

/-- The ways the machine stops with a fault. -/
inductive Fault where
  /-- Raised by `busRead` and `busWrite`: a host access to the window of a width other than 8 bytes, which has no
  transition (R62, R23). Only the host is stuck: the run ends once no command is in flight and no reset is to come. Safe: the
  machine stops where a real bus might go on. -/
  | badAccessWidth
  /-- Raised by `busRead` and `busWrite`: an 8-byte host access that is not 8-byte aligned, which has no transition
  (R63, R23). The run ends as for `badAccessWidth`. Safe: the machine stops where a real bus might go on. -/
  | misalignedAccess
  /-- Raised by `runStmt`: an `ASSERT` whose condition is false "stops the program in a failed state" (R103). It stops the
  program only: a command in flight completes before the run ends. Safe. -/
  | assertFailed
  deriving DecidableEq, Repr

/-- The ways the machine has no meaning for what it is asked to do. -/
inductive Refusal where
  /-- Raised by `exec` for a command that has no meaning yet, by its name in the opcode table. Safe. -/
  | notModelled (mnemonic : String)
  /-- Raised by `withIndex` and `runStmt`: a format-I command whose index is outside 0..15, for which "no word is
  produced" (R101). Safe. -/
  | assemblyError
  /-- Raised by `busRead` and `busWrite`: a host access outside the window, which is not DESE's and to which the spec
  gives no meaning (R61, R63, U5). Safe. -/
  | outsideWindow
  /-- Raised by `runStmt`: a host statement outside the notation of R103: operands that do not fit, a value wider than a
  host variable, a `FOR` with a > b, an index that is no variable of a `FOR`. Safe. -/
  | illFormedStatement
  deriving DecidableEq, Repr

/-- The outcome of a step of this machine. -/
abbrev Result := Host.Outcome State Fault Refusal

/-- The machine right after reset (R340). SK's reset value is unspecified and never observable (R42): the model names 0
[DESIGN CHOICE, log entry 1]. The host's variables start undefined (R99): the model names 0 [DESIGN CHOICE, log entry 2].
The host has no program yet and the outside supplies nothing [DESIGN CHOICE, log entries 3, 4 and 6]. -/
def State.reset : State where
  key := 0
  din := 0
  dout := 0
  busy := false
  done := false
  keyValid := false
  err := 0
  sk := Vector.replicate 16 0
  inflight := none
  hostVars := Vector.replicate 8 0
  program := []
  wait := 0
  latencies := []
  draws := 0
  resets := []

end Sys2Proof.Machine
end

