-- ==== Sys2Proof/Machine/Flags.lean ====
section
/-! DEFINITION. The STATUS register: its layout (spec 10_state.md R36, R47) and the operations that write its fields
(R37–R40, 60_exceptions.md R303). DESE has no arithmetic flags (R41). -/

namespace Sys2Proof.Machine

/-- STATUS as the host reads it: `zext64(err ‖ 0b0 ‖ keyValid ‖ done ‖ busy)` (R36, R47). -/
def statusWord (s : State) : Word :=
  (s.err ++ 0#1 ++ BitVec.ofBool s.keyValid ++ BitVec.ofBool s.done ++ BitVec.ofBool s.busy).setWidth 64

/-- `record(c)`: ERR keeps the first error (R303). -/
def record (c : ErrCode) (s : State) : State :=
  { s with err := if s.err = 0 then c.code else s.err }

/-- DONE is cleared by every CMD write that is not dropped (R38, R240 step 2). -/
def clearDone (s : State) : State := { s with done := false }

/-- ERR ← 0, the effect of CLRERR (R251). -/
def clearErr (s : State) : State := { s with err := 0 }

end Sys2Proof.Machine
end

