-- ==== Sys2Proof/Machine/Operands.lean ====
section
/-! DEFINITION. The operand forms: DES bits and register bits (spec 00_scope.md R11–R14), the part of DIN a unit reads and
the place of its result in DOUT (30_encoding.md R96, R97), the halves of a block and of C‖D, and the index of a format-I
command (R92). -/

namespace Sys2Proof.Machine

/-- `des_W(v, n) = v[W - n]` for 1 ≤ n ≤ W: DES bit n counts from the most significant bit (R11, R13). -/
def desBit {w : Nat} (v : BitVec w) (n : Nat) : Bool := v.getLsbD (w - n)

/-- The low `n` bits of a register, the operand of an `n`-bit unit; the bits above are ignored (R96). -/
def lowBits (n : Nat) (v : Word) : BitVec n := v.setWidth n

/-- `zext64(result)`: the placement of a result in DOUT (R97). -/
def zext64 {n : Nat} (v : BitVec n) : Word := v.setWidth 64

/-- L, DES bits 1..32 of a block (R213). -/
def leftHalf (b : Word) : Half := b.extractLsb' 32 32

/-- R, DES bits 33..64 of a block (R213). -/
def rightHalf (b : Word) : Half := b.extractLsb' 0 32

/-- C, DES bits 1..28 of C‖D (R181). -/
def keyLeft (cd : KeyState) : KeyHalf := cd.extractLsb' 28 28

/-- D, DES bits 29..56 of C‖D (R181). -/
def keyRight (cd : KeyState) : KeyHalf := cd.extractLsb' 0 28

/-- The index of a format-I command, 0..15; a number outside that range has no command word (R92, R101). -/
def withIndex (idx : Nat) (k : Fin 16 → Result) : Result :=
  if h : idx < 16 then k ⟨idx, h⟩ else .refused .assemblyError

/-- The value of a `WR` operand (R100). -/
def Src.value (s : State) : Src → Word
  | .lit v => v
  | .var n => s.hostVars[n]

end Sys2Proof.Machine
end

