-- ==== Sys2Proof/Machine/Ops.lean ====
section
/-! DEFINITION. The named operations over the state: rejecting and dropping a write, which is all DESE has in the place of
taking an exception (spec 60_exceptions.md R302, R305, R315), accepting a command (44_control.md R240, R241), completing it
(R245), and reset (70_reset_and_hazards.md R340, R341). -/

namespace Sys2Proof.Machine

/-- A write dropped while BUSY = 1: no register changes and ERR_BUSY is recorded; DONE is as it was (R305, R242). -/
def drop (s : State) : State := record .busy s

/-- `raise Reject(c)` at a CMD write: DONE = 0 and the code recorded, nothing else (R242, R302). This is the one shared
operation for an error; there is no trap entry, no vector and no return (R315, R316). -/
def reject (c : ErrCode) (s : State) : State := record c (clearDone s)

/-- The commands that read SK and so need KEY_VALID = 1 (R93, R240 step 4). -/
def needsKey : Instr → Bool
  | .enc | .dec | .ffunc _ | .round _ | .skread _ => true
  | .nop | .keyload | .keyclr | .clrerr => false
  | .permIp | .permFp | .permE | .permP | .permPc1 | .permPc2 => false
  | .sbox | .ksrot _ => false

/-- How many host steps will pass before the command now accepted completes (R244): the next latency the outside supplies,
and a free value where it supplies none. -/
def nextLatency (s : State) : Nat :=
  match s.latencies with
  | n :: _ => n
  | [] => Config.latency s.draws

/-- Acceptance (R241): capture KEY and DIN with the command and set BUSY. The latency is settled here. -/
def accept (i : Instr) (s : State) : State :=
  { s with
    inflight := some { cmd := i, key := s.key, din := s.din }
    busy := true
    wait := nextLatency s
    latencies := s.latencies.tail
    draws := s.draws + 1 }

/-- Steps 1, 2, 4 and 5 of the CMD write procedure for a word that decodes to `i` (R240): drop it while busy; else clear
DONE, reject it with ERR_NOKEY where it needs the schedule and has none, else accept it. -/
def issue (i : Instr) (s : State) : State :=
  if s.busy then drop s
  else if needsKey i && !s.keyValid then reject .noKey s
  else accept i (clearDone s)

/-- What every completion step does after the command's own effect (R245). -/
def complete (s : State) : State :=
  { s with inflight := none, busy := false, done := true, wait := 0 }

/-- A command `i` with completion effect `body` (R245, R246). A command has two phases. While `i` is the command in flight,
running it is the engine's step: its effect on the captured operands, then `complete`. Otherwise running it is the host's
CMD write of its word, after decoding: `issue`. -/
def command (i : Instr) (body : InFlight → State → State) (s : State) : Result :=
  match s.inflight with
  | some f => if f.cmd = i then .next (complete (body f s)) else .next (issue i s)
  | none => .next (issue i s)

/-- `DOUT <- v`, the effect of a result-producing command (R97, R34). -/
def setDout (v : Word) (s : State) : State := { s with dout := v }

/-- `hN <- v` for a host variable (R100, R103). -/
def setHostVar (n : Fin 8) (v : Word) (s : State) : State := { s with hostVars := s.hostVars.set n v }

/-- Reset of DESE at any time: a command in flight is discarded and every register takes its reset value (R340, R341).
The host, its program and the outside's inputs are not DESE's state and go on. SK as in `State.reset` [log entry 1]. -/
def deviceReset (s : State) : State :=
  { s with
    key := State.reset.key
    din := State.reset.din
    dout := State.reset.dout
    busy := State.reset.busy
    done := State.reset.done
    keyValid := State.reset.keyValid
    err := State.reset.err
    sk := State.reset.sk
    inflight := State.reset.inflight
    wait := State.reset.wait }

end Sys2Proof.Machine
end

