-- ==== Sys2Proof/Machine/Control.lean ====
section
/-! DEFINITION. The control commands (spec 44_control.md): the meanings of NOP and CLRERR. -/

namespace Sys2Proof.Machine

/-- NOP: nothing beyond the completion's BUSY ← 0 and DONE ← 1 (R250). -/
def execNop (s : State) : Result := command .nop (fun _ t => t) s

/-- CLRERR: `STATUS.ERR <- 0` (R251). -/
def execClrerr (s : State) : Result := command .clrerr (fun _ => clearErr) s

end Sys2Proof.Machine
end

