-- ==== Sys2Proof/Machine/Permutation.lean ====
section
/-! DEFINITION. The permutation units (spec 40_permutation_units.md): the six tables, the permutation primitive, and the
meanings of PERM_IP, PERM_FP, PERM_E, PERM_P, PERM_PC1 and PERM_PC2. The tables are constants, not state (R46). -/

namespace Sys2Proof.Machine

/-- IP, the initial permutation: 64 entries over 64 bits (R122). -/
def ipTable : List Nat :=
  [58, 50, 42, 34, 26, 18, 10,  2,
   60, 52, 44, 36, 28, 20, 12,  4,
   62, 54, 46, 38, 30, 22, 14,  6,
   64, 56, 48, 40, 32, 24, 16,  8,
   57, 49, 41, 33, 25, 17,  9,  1,
   59, 51, 43, 35, 27, 19, 11,  3,
   61, 53, 45, 37, 29, 21, 13,  5,
   63, 55, 47, 39, 31, 23, 15,  7]

/-- FP, the final permutation IP⁻¹: 64 entries over 64 bits (R123). -/
def fpTable : List Nat :=
  [40,  8, 48, 16, 56, 24, 64, 32,
   39,  7, 47, 15, 55, 23, 63, 31,
   38,  6, 46, 14, 54, 22, 62, 30,
   37,  5, 45, 13, 53, 21, 61, 29,
   36,  4, 44, 12, 52, 20, 60, 28,
   35,  3, 43, 11, 51, 19, 59, 27,
   34,  2, 42, 10, 50, 18, 58, 26,
   33,  1, 41,  9, 49, 17, 57, 25]

/-- E, the expansion permutation: 48 entries over 32 bits (R125). -/
def eTable : List Nat :=
  [32,  1,  2,  3,  4,  5,
    4,  5,  6,  7,  8,  9,
    8,  9, 10, 11, 12, 13,
   12, 13, 14, 15, 16, 17,
   16, 17, 18, 19, 20, 21,
   20, 21, 22, 23, 24, 25,
   24, 25, 26, 27, 28, 29,
   28, 29, 30, 31, 32,  1]

/-- P, the P-box permutation: 32 entries over 32 bits (R126). -/
def pTable : List Nat :=
  [16,  7, 20, 21,
   29, 12, 28, 17,
    1, 15, 23, 26,
    5, 18, 31, 10,
    2,  8, 24, 14,
   32, 27,  3,  9,
   19, 13, 30,  6,
   22, 11,  4, 25]

/-- PC-1, permuted choice 1: 56 entries over 64 bits (R127). -/
def pc1Table : List Nat :=
  [57, 49, 41, 33, 25, 17,  9,
    1, 58, 50, 42, 34, 26, 18,
   10,  2, 59, 51, 43, 35, 27,
   19, 11,  3, 60, 52, 44, 36,
   63, 55, 47, 39, 31, 23, 15,
    7, 62, 54, 46, 38, 30, 22,
   14,  6, 61, 53, 45, 37, 29,
   21, 13,  5, 28, 20, 12,  4]

/-- PC-2, permuted choice 2: 48 entries over 56 bits (R128). -/
def pc2Table : List Nat :=
  [14, 17, 11, 24,  1,  5,
    3, 28, 15,  6, 21, 10,
   23, 19, 12,  4, 26,  8,
   16,  7, 27, 20, 13,  2,
   41, 52, 31, 37, 47, 55,
   30, 40, 51, 45, 33, 48,
   44, 49, 39, 56, 34, 53,
   46, 42, 50, 36, 29, 32]

/-- `PERM(T, v, Win)`: DES bit i of the result is DES bit T[i] of `v` (R15, R120). The result has one bit per entry of
the table, the first entry's the most significant; `wout` is the table's length. -/
def perm (table : List Nat) (wout : Nat) {win : Nat} (v : BitVec win) : BitVec wout :=
  table.foldl (fun acc t => acc.shiftConcat (desBit v t)) 0#wout

/-- IP applied to a block (R122). -/
def permIp (b : Word) : Word := perm ipTable 64 b

/-- FP applied to a block (R123). -/
def permFp (b : Word) : Word := perm fpTable 64 b

/-- E applied to a half (R125). -/
def permE (r : Half) : Subkey := perm eTable 48 r

/-- P applied to a half (R126). -/
def permP (r : Half) : Half := perm pTable 32 r

/-- PC-1 applied to a key (R127). -/
def permPc1 (k : Word) : KeyState := perm pc1Table 56 k

/-- PC-2 applied to C‖D (R128). -/
def permPc2 (cd : KeyState) : Subkey := perm pc2Table 48 cd

/-- PERM_IP: `DOUT <- PERM(IP, din, 64)` (R130). -/
def execPermIp (s : State) : Result := command .permIp (fun f => setDout (permIp f.din)) s

/-- PERM_FP: `DOUT <- PERM(FP, din, 64)` (R131). -/
def execPermFp (s : State) : Result := command .permFp (fun f => setDout (permFp f.din)) s

/-- PERM_E: `DOUT <- zext64(PERM(E, din[31:0], 32))` (R132). -/
def execPermE (s : State) : Result := command .permE (fun f => setDout (zext64 (permE (lowBits 32 f.din)))) s

/-- PERM_P: `DOUT <- zext64(PERM(P, din[31:0], 32))` (R133). -/
def execPermP (s : State) : Result := command .permP (fun f => setDout (zext64 (permP (lowBits 32 f.din)))) s

/-- PERM_PC1: `DOUT <- zext64(PERM(PC1, din, 64))`; SK and KEY_VALID are not touched (R134). -/
def execPermPc1 (s : State) : Result := command .permPc1 (fun f => setDout (zext64 (permPc1 f.din))) s

/-- PERM_PC2: `DOUT <- zext64(PERM(PC2, din[55:0], 56))` (R135). -/
def execPermPc2 (s : State) : Result := command .permPc2 (fun f => setDout (zext64 (permPc2 (lowBits 56 f.din)))) s

end Sys2Proof.Machine
end

