-- ==== Sys2Proof/Machine/KeySchedule.lean ====
section
/-! DEFINITION. The key schedule unit (spec 42_key_schedule.md): the rotation schedule, the function KS, and the meanings of
KEYLOAD, KEYCLR, KSROT and SKREAD. -/

namespace Sys2Proof.Machine

/-- `SHIFTS[i]` (R180, R8). -/
def shiftsTable : Vector Nat 16 := #v[1, 1, 2, 2, 2, 2, 2, 2, 1, 2, 2, 2, 2, 2, 2, 1]

/-- `rotl28(x, s)`: left rotation of a 28-bit value, toward DES bit 1 (R14, R182). -/
def rotl28 (x : KeyHalf) (s : Nat) : KeyHalf := (x <<< s) ||| (x >>> (28 - s))

/-- One round's rotation of C‖D: each half on its own, no bit crosses (R182). -/
def rotateHalves (cd : KeyState) (i : Fin 16) : KeyState :=
  rotl28 (keyLeft cd) shiftsTable[i] ++ rotl28 (keyRight cd) shiftsTable[i]

/-- `C_i‖D_i`: PC-1 of the key, then the first i rotations (R181, R182, R184). -/
def keyState (key : Word) : Nat → KeyState
  | 0 => permPc1 key
  | i + 1 => rotateHalves (keyState key i) (Fin.ofNat 16 i)

/-- `K_i = PERM(PC2, C_{i+1} ‖ D_{i+1}, 56)` (R183). -/
def roundKey (key : Word) (i : Fin 16) : Subkey := permPc2 (keyState key (i.val + 1))

/-- The key schedule `KS(key)` (R186). -/
def keySchedule (key : Word) : Vector Subkey 16 := Vector.ofFn (roundKey key)

/-- `SK <- KS(key); KEY_VALID <- 1`, the effect of KEYLOAD (R190). -/
def loadSchedule (key : Word) (s : State) : State := { s with sk := keySchedule key, keyValid := true }

/-- `SK <- 0; KEY_VALID <- 0`, the effect of KEYCLR (R195). -/
def clearSchedule (s : State) : State := { s with sk := Vector.replicate 16 0, keyValid := false }

/-- KEYLOAD: run the key schedule on KEY and fill the subkey file (R190). -/
def execKeyload (s : State) : Result := command .keyload (fun f => loadSchedule f.key) s

/-- KEYCLR: discard the schedule (R195). -/
def execKeyclr (s : State) : Result := command .keyclr (fun _ => clearSchedule) s

/-- KSROT: one round's rotation of `din[55:0]` as C‖D (R193). -/
def execKsrot (idx : Nat) (s : State) : Result :=
  withIndex idx fun i => command (.ksrot idx) (fun f => setDout (zext64 (rotateHalves (lowBits 56 f.din) i))) s

/-- SKREAD: `DOUT <- zext64(SK[idx])` (R194). -/
def execSkread (idx : Nat) (s : State) : Result :=
  withIndex idx fun i => command (.skread idx) (fun _ t => setDout (zext64 t.sk[i]) t) s

end Sys2Proof.Machine
end

