-- ==== Sys2Proof/Machine/Feistel.lean ====
section
/-! DEFINITION. The Feistel round engine (spec 43_feistel.md): the round function, the sixteen rounds, block encryption and
decryption, and the meanings of ENC, DEC, FFUNC and ROUND. -/

namespace Sys2Proof.Machine

/-- The round function `f(R, K) = P(SUB(E(R) ⊕ K))` (R210). -/
def feistel (r : Half) (k : Subkey) : Half := permP (substitute (permE r ^^^ k))

/-- One round: `(L, R)` becomes `(R, L ⊕ f(R, K))`, the one shape both directions use (R212). -/
def feistelRound (lr : Half × Half) (k : Subkey) : Half × Half := (lr.2, lr.1 ^^^ feistel lr.2 k)

/-- The rounds over a block with the given subkeys in order, and the halves swapped in the output: R_16 ‖ L_16 (R213). -/
def rounds (b : Word) (ks : List Subkey) : Word :=
  let lr := ks.foldl feistelRound (leftHalf b, rightHalf b)
  lr.2 ++ lr.1

/-- `ENCB`: IP, the rounds with SK[0], …, SK[15], FP (R214). -/
def encryptBlock (sk : Vector Subkey 16) (b : Word) : Word := permFp (rounds (permIp b) sk.toList)

/-- `DECB`: the same with the subkeys in reverse order, SK[15], …, SK[0] (R215, R188). -/
def decryptBlock (sk : Vector Subkey 16) (c : Word) : Word := permFp (rounds (permIp c) sk.toList.reverse)

/-- One round applied to a block, without the final swap: `R ‖ (L ⊕ f(R, K))` (R223). -/
def roundBlock (b : Word) (k : Subkey) : Word :=
  let lr := feistelRound (leftHalf b, rightHalf b) k
  lr.1 ++ lr.2

/-- ENC: `DOUT <- ENCB(SK, din)` (R220). -/
def execEnc (s : State) : Result := command .enc (fun f t => setDout (encryptBlock t.sk f.din) t) s

/-- DEC: `DOUT <- DECB(SK, din)` (R221). -/
def execDec (s : State) : Result := command .dec (fun f t => setDout (decryptBlock t.sk f.din) t) s

/-- FFUNC: `DOUT <- zext64(f(din[31:0], SK[idx]))` (R222). -/
def execFfunc (idx : Nat) (s : State) : Result :=
  withIndex idx fun i => command (.ffunc idx) (fun f t => setDout (zext64 (feistel (lowBits 32 f.din) t.sk[i])) t) s

/-- ROUND: one round of `din` with SK[idx] (R223). -/
def execRound (idx : Nat) (s : State) : Result :=
  withIndex idx fun i => command (.round idx) (fun f t => setDout (roundBlock f.din t.sk[i]) t) s

end Sys2Proof.Machine
end

