-- ==== Sys2Proof/Machine/Dispatch.lean ====
section
/-! DEFINITION. One arm per command (spec 44_control.md R246). -/

namespace Sys2Proof.Machine

-- Each arm is one direct call of the command's own meaning.
def exec (i : Instr) (s : State) : Host.Outcome State Fault Refusal :=
  match i with
  | .nop => Sys2Proof.Machine.execNop s
  | .keyload => Sys2Proof.Machine.execKeyload s
  | .keyclr => Sys2Proof.Machine.execKeyclr s
  | .clrerr => Sys2Proof.Machine.execClrerr s
  | .enc => Sys2Proof.Machine.execEnc s
  | .dec => Sys2Proof.Machine.execDec s
  | .permIp => Sys2Proof.Machine.execPermIp s
  | .permFp => Sys2Proof.Machine.execPermFp s
  | .permE => Sys2Proof.Machine.execPermE s
  | .permP => Sys2Proof.Machine.execPermP s
  | .permPc1 => Sys2Proof.Machine.execPermPc1 s
  | .permPc2 => Sys2Proof.Machine.execPermPc2 s
  | .sbox => Sys2Proof.Machine.execSbox s
  | .ksrot idx => Sys2Proof.Machine.execKsrot idx s
  | .ffunc idx => Sys2Proof.Machine.execFfunc idx s
  | .round idx => Sys2Proof.Machine.execRound idx s
  | .skread idx => Sys2Proof.Machine.execSkread idx s

end Sys2Proof.Machine
end

