-- ==== Sys2Proof/Machine/Bus.lean ====
section
/-! DEFINITION. The host's accesses to the register window (spec 20_memory.md R60–R64, R68, 44_control.md R240, R247). Each is
one atomic step (R68). DESE has no other memory (R60). -/

namespace Sys2Proof.Machine

/-- `hostRead` (R247): what a read of a slot returns, busy or not. A read has no side effect (R64, R65). -/
def hostRead (r : Slot) (s : State) : Word :=
  match r with
  | .key => s.key
  | .din => s.din
  | .dout => s.dout
  | .cmd => 0
  | .status => statusWord s
  | .rsv5 | .rsv6 | .rsv7 => 0

/-- A CMD write that is not dropped (R240, steps 2 to 5): a word that does not decode is rejected, one that decodes runs
its command, which finds the engine idle and so is accepted or rejected. -/
def cmdWrite (w : Word) (s : State) : Result :=
  match decode w with
  | .error c => .next (reject c s)
  | .ok i => exec i s

/-- `hostWrite` (R247): while busy every write to any slot is dropped (R64, R305); else each slot does what R64 says. -/
def hostWrite (r : Slot) (v : Word) (s : State) : Result :=
  if s.busy then .next (drop s)
  else
    match r with
    | .key => .next { s with key := v, keyValid := false }
    | .din => .next { s with din := v }
    | .cmd => cmdWrite v s
    | .dout | .status | .rsv5 | .rsv6 | .rsv7 => .next s

/-- Which host accesses the bus admits (R61, R62, R63): an address of the window, eight bytes wide, aligned. -/
def admitAccess (addr width : Nat) (k : Slot → Result) : Result :=
  match decodeAddress Config.deseBase addr with
  | .outside => .refused .outsideWindow
  | .misaligned => .fault (if width = 8 then .misalignedAccess else .badAccessWidth)
  | .slot r => if width = 8 then k r else .fault .badAccessWidth

/-- `MemWrite(addr, width, v)` (R17, R61–R64). -/
def busWrite (addr width : Nat) (v : Word) (s : State) : Result :=
  admitAccess addr width fun r => hostWrite r v s

/-- `hN <- MemRead(addr, width)` (R17, R61–R64, R100). -/
def busRead (n : Fin 8) (addr width : Nat) (s : State) : Result :=
  admitAccess addr width fun r => .next (setHostVar n (hostRead r s) s)

end Sys2Proof.Machine
end

