-- ==== Sys2Proof/Machine/Schedule.lean ====
section
/-! DEFINITION. One step of the whole machine: the host's next statement (spec 30_encoding.md R100–R103), the engine's
completion step (44_control.md R243, R245), which of the two moves (R244, 20_memory.md R70), and reset
(70_reset_and_hazards.md R341). -/

namespace Sys2Proof.Machine

/-- What the host does at the statement it has taken off its program (R100–R103). A control statement puts what is to run
next back on the program; it makes no access. -/
def runStmt (st : HostStmt) (s : State) : Result :=
  match st with
  | .skip => .next s
  | .seq a b => .next { s with program := a :: b :: s.program }
  | .wr r v => hostWrite r (v.value s) s
  | .rd n r => .next (setHostVar n (hostRead r s) s)
  | .memWrite addr width v => busWrite addr width (v.value s) s
  | .memRead n addr width => busRead n addr width s
  | .cmd i =>
    match asm i with
    | some w => hostWrite .cmd w s
    | none => .refused .assemblyError
  | .cmdVar _ _ => .refused .illFormedStatement
  | .assign n e =>
    match e.width with
    | some w =>
      if w ≤ 64 then .next (setHostVar n (BitVec.ofNat 64 (e.eval s.hostVars)) s) else .refused .illFormedStatement
    | none => .refused .illFormedStatement
  | .assert c =>
    if c.wellFormed then
      if c.eval s.hostVars then .next s else .fault .assertFailed
    else .refused .illFormedStatement
  | .forLoop x a b body =>
    if a < b then .next { s with program := body.subst x a :: .forLoop x (a + 1) b body :: s.program }
    else if a = b then .next { s with program := body.subst x a :: s.program }
    else .refused .illFormedStatement
  | .loopUntil body c => .next { s with program := body :: .untilCheck body c :: s.program }
  | .untilCheck body c =>
    if c.wellFormed then
      if c.eval s.hostVars then .next s else .next { s with program := body :: .untilCheck body c :: s.program }
    else .refused .illFormedStatement

/-- The host's step (R21): its next statement. A host whose program is over makes no more accesses; with no command in
flight nothing is left to happen, and all state is retained (R329). -/
def hostStep (s : State) : Result :=
  match s.program with
  | [] => .next s
  | st :: rest => runStmt st { s with program := rest }

/-- `engineStep` (R247): enabled exactly when a command is in flight (R243), and then it completes that command (R245). -/
def engineStep (s : State) : Option Result :=
  match s.inflight with
  | some f => some (exec f.cmd s)
  | none => none

/-- A step of the host where it has one. Where it is stuck (R62, R63), its program has stopped in a failed state (R103) or
its statement has no meaning, only the host stands still: what else can happen, happens. -/
def hostOrElse (r other : Result) : Result :=
  match r with
  | .next t => .next t
  | .fault _ | .refused _ => other

/-- Which agent moves (R70, R244). With a command in flight the host moves as often as the command's latency says, as long
as it has a step; then the engine moves, whose step stays enabled (R243). So every accepted command completes. With none in
flight a host that has no step ends the run, unless a reset is still to come (R341), to which time passes. -/
def agentStep (s : State) : Result :=
  match s.inflight, s.program, s.wait with
  | some f, [], _ => exec f.cmd s
  | some f, _ :: _, 0 => exec f.cmd s
  | some f, _ :: _, n + 1 => hostOrElse (hostStep { s with wait := n }) (exec f.cmd s)
  | none, _, _ => if s.resets.isEmpty then hostStep s else hostOrElse (hostStep s) (.next s)

/-- One step of the machine: reset where the platform asserts it now (R341), else one agent's step. -/
def machineStep (s : State) : Result :=
  match s.resets with
  | 0 :: rest => .next (deviceReset { s with resets := rest })
  | (n + 1) :: rest => agentStep { s with resets := n :: rest }
  | [] => agentStep s

/-- The state in which the very next step is the host's CMD write of `w`, to an idle engine: `w`'s `WR CMD` is the host's
next statement, no command is in flight and no reset is due now. -/
def placeCommand (w : Word) (s : State) : State :=
  { s with
    program := .wr .cmd (.lit w) :: s.program
    inflight := none
    busy := false
    wait := 0
    resets :=
      match s.resets with
      | 0 :: rest => 1 :: rest
      | other => other }

end Sys2Proof.Machine
end

