-- ==== Sys2Proof/Machine/Step.lean ====
section
/-! DEFINITION. The step of the machine, and how a command word is put where the next step takes it from. -/

namespace Sys2Proof.Machine

/-- One step (spec 44_control.md R247, 20_memory.md R70). -/
def step (s : State) : Host.Outcome State Fault Refusal := machineStep s

/-- DESE fetches nothing (10_state.md R31): its next command is the host's next CMD write. `withFetchWord` makes the word
of the table's first `nbits` bits, the bits above them zero, the value of that write, and makes the write the next step. -/
def State.withFetchWord (s : State) (nbits w : Nat) : State := placeCommand (BitVec.ofNat 64 (w % 2 ^ nbits)) s

end Sys2Proof.Machine
end

