-- ==== Sys2Proof/Machine/Driver.lean ====
section
/-! DEFINITION. The host driver (spec 45_host_driver.md): text and hex conversion, the padding scheme, and the ECB driver as
a sequence of accesses to the machine. It is host software over the machine's own operations; it is not part of a step. -/

namespace Sys2Proof.Machine

/-- A bit sequence, first bit first (R260). -/
abbrev Bits := List Bool

/-- A text: its Unicode scalar values in order (R261). -/
abbrev Text := List Char

/-- The driver's faults (R308). They are not DESE state. -/
inductive DriverFault where
  /-- The key text's UTF-8 is not exactly 8 bytes (R268). Raised by `encrypt` and `decrypt`. -/
  | invalidKeyLength
  /-- A non-hex character, a bit count that is no multiple of 8, or invalid UTF-8 (R262, R264). Raised by `decrypt`. -/
  | decodeError
  /-- A ciphertext whose bit count is no multiple of 64 (R270). Raised by `decrypt`. -/
  | invalidWidth
  /-- A decrypted bit sequence with no 0 bit (R266). Raised by `decrypt`. -/
  | noPadMarker
  deriving DecidableEq, Repr

/-- Why a driver call gave no result. -/
inductive DriverStop where
  /-- One of the driver's own faults (R308). -/
  | fault (f : DriverFault)
  /-- The `ASSERT` of a `RUN` failed: a command was not accepted and completed (R106). -/
  | runFailed
  /-- The machine itself stopped at an access; no access the driver makes does that. -/
  | machineStopped
  deriving DecidableEq, Repr

/-- What a driver call gives: a result or the reason for none, and the machine's state after the accesses made. -/
abbrev DriverResult (α : Type) := Except DriverStop α × State

/-! ### Bits, registers and bytes (R260, R66) -/

/-- The register value of a 64-bit slice: the first bit is bit 63 (R260). -/
def valueOfBits (b : Bits) : Word := b.foldl (fun acc x => acc.shiftConcat x) 0#64

/-- The bits of a register value, bit 63 first: the inverse of `valueOfBits` on 64 bits (R260, R269). -/
def bits64 (w : Word) : Bits := (List.range 64).map fun i => w.getLsbD (63 - i)

/-- `bits8(u)`: a byte's bits, most significant first (R261). -/
def bits8 (u : Byte) : Bits := (List.range 8).map fun i => u.getLsbD (7 - i)

/-- A byte from eight bits, most significant first (R262). -/
def byteOfBits (b : Bits) : Byte := b.foldl (fun acc x => acc.shiftConcat x) 0#8

/-- The `n` 64-bit blocks of a bit sequence, in order (R269, R270). -/
def blocksOfBits : Nat → Bits → List Word
  | 0, _ => []
  | n + 1, b => valueOfBits (b.take 64) :: blocksOfBits n (b.drop 64)

/-- The block an 8-byte message makes: the big-endian numeral of its bytes (R66). -/
def blockOfBytes (b : Vector Byte 8) : Word :=
  (b[0] ++ b[1] ++ b[2] ++ b[3] ++ b[4] ++ b[5] ++ b[6] ++ b[7]).setWidth 64

/-! ### UTF-8 (R261, R262; validity as in RFC 3629) -/

/-- The UTF-8 encoding of one scalar value. -/
def utf8OfChar (c : Char) : List Byte :=
  let n := c.toNat
  if n < 0x80 then [BitVec.ofNat 8 n]
  else if n < 0x800 then [BitVec.ofNat 8 (0xC0 + n / 0x40), BitVec.ofNat 8 (0x80 + n % 0x40)]
  else if n < 0x10000 then
    [BitVec.ofNat 8 (0xE0 + n / 0x1000), BitVec.ofNat 8 (0x80 + n / 0x40 % 0x40), BitVec.ofNat 8 (0x80 + n % 0x40)]
  else
    [BitVec.ofNat 8 (0xF0 + n / 0x40000), BitVec.ofNat 8 (0x80 + n / 0x1000 % 0x40),
     BitVec.ofNat 8 (0x80 + n / 0x40 % 0x40), BitVec.ofNat 8 (0x80 + n % 0x40)]

/-- The UTF-8 encoding of a text (R261). -/
def utf8Encode (t : Text) : List Byte := t.flatMap utf8OfChar

/-- The payload of a continuation byte 10xxxxxx; `none` for any other byte. -/
def continuation (b : Byte) : Option Nat :=
  if 0x80 ≤ b.toNat ∧ b.toNat < 0xC0 then some (b.toNat - 0x80) else none

/-- The scalar value of a decoded number that needs at least `least`: no overlong form, no surrogate, none above U+10FFFF
(R262). -/
def scalar (least n : Nat) : Option Char :=
  if h : n.isValidChar then if least ≤ n then some (Char.ofNatAux n h) else none else none

/-- Put a decoded character before the rest of a decoded text. -/
def consChar (c : Option Char) (rest : Option Text) : Option Text :=
  match c, rest with
  | some c, some t => some (c :: t)
  | _, _ => none

/-- A two-byte scalar value: 110xxxxx 10xxxxxx. -/
def scalar2 (b c : Byte) : Option Char :=
  match continuation c with
  | some x => scalar 0x80 ((b.toNat - 0xC0) * 0x40 + x)
  | none => none

/-- A three-byte scalar value: 1110xxxx and two continuation bytes. -/
def scalar3 (b c d : Byte) : Option Char :=
  match continuation c, continuation d with
  | some x, some y => scalar 0x800 ((b.toNat - 0xE0) * 0x1000 + x * 0x40 + y)
  | _, _ => none

/-- A four-byte scalar value: 11110xxx and three continuation bytes. -/
def scalar4 (b c d e : Byte) : Option Char :=
  match continuation c, continuation d, continuation e with
  | some x, some y, some z => scalar 0x10000 ((b.toNat - 0xF0) * 0x40000 + x * 0x1000 + y * 0x40 + z)
  | _, _, _ => none

/-- Decode UTF-8; `none` where the bytes are not valid UTF-8 (R262). `fuel` is at least the number of bytes. -/
def utf8DecodeFuel : Nat → List Byte → Option Text
  | _, [] => some []
  | 0, _ :: _ => none
  | fuel + 1, b :: rest =>
    if b.toNat < 0x80 then consChar (scalar 0 b.toNat) (utf8DecodeFuel fuel rest)
    else if b.toNat < 0xC0 then none
    else if b.toNat < 0xE0 then
      match rest with
      | c :: rest => consChar (scalar2 b c) (utf8DecodeFuel fuel rest)
      | _ => none
    else if b.toNat < 0xF0 then
      match rest with
      | c :: d :: rest => consChar (scalar3 b c d) (utf8DecodeFuel fuel rest)
      | _ => none
    else if b.toNat < 0xF8 then
      match rest with
      | c :: d :: e :: rest => consChar (scalar4 b c d e) (utf8DecodeFuel fuel rest)
      | _ => none
    else none

/-- Decode UTF-8 (R262). -/
def utf8Decode (b : List Byte) : Option Text := utf8DecodeFuel b.length b

/-- `text_to_bits(s)` (R261). -/
def textToBits (t : Text) : Bits := (utf8Encode t).flatMap bits8

/-- The bytes of a bit sequence; `none` where the bit count is no multiple of 8 (R262). -/
def bytesOfBits : Bits → Option (List Byte)
  | [] => some []
  | a :: b :: c :: d :: e :: f :: g :: h :: rest =>
    match bytesOfBits rest with
    | some bytes => some (byteOfBits [a, b, c, d, e, f, g, h] :: bytes)
    | none => none
  | _ => none

/-- `bits_to_text(b)` (R262). -/
def bitsToText (b : Bits) : Except DriverFault Text :=
  match bytesOfBits b with
  | none => .error .decodeError
  | some bytes =>
    match utf8Decode bytes with
    | none => .error .decodeError
    | some t => .ok t

/-! ### Hexadecimal (R263, R264) -/

/-- A number below 16 as an upper-case hex digit (R263). -/
def hexDigit (n : Nat) : Char := if n < 10 then Char.ofNat (48 + n) else Char.ofNat (55 + n)

/-- The value of a hex digit, upper or lower case; `none` for any other character (R264). -/
def hexValue (c : Char) : Option Nat :=
  let n := c.toNat
  if 48 ≤ n ∧ n ≤ 57 then some (n - 48)
  else if 65 ≤ n ∧ n ≤ 70 then some (n - 55)
  else if 97 ≤ n ∧ n ≤ 102 then some (n - 87)
  else none

/-- Four bits of a number below 16, most significant first (R264). -/
def bits4 (n : Nat) : Bits := [n.testBit 3, n.testBit 2, n.testBit 1, n.testBit 0]

/-- `bits_to_hex(b)`, one digit for each group of four bits (R263). A rest of fewer than four bits, which no input the
driver has can leave, gives no digit [DESIGN CHOICE, log entry 13]. -/
def bitsToHex : Bits → Text
  | a :: b :: c :: d :: rest => hexDigit (a.toNat * 8 + b.toNat * 4 + c.toNat * 2 + d.toNat) :: bitsToHex rest
  | _ => []

/-- `hex_to_bits(h)` (R264). -/
def hexToBits : Text → Except DriverFault Bits
  | [] => .ok []
  | c :: rest =>
    match hexValue c, hexToBits rest with
    | some n, .ok bits => .ok (bits4 n ++ bits)
    | _, _ => .error .decodeError

/-! ### Padding (R265, R266) -/

/-- `pad(b)`: a 0, then 1s up to the next multiple of 64 (R265). -/
def pad (b : Bits) : Bits :=
  let n := 64 * (b.length / 64 + 1)
  b ++ [false] ++ List.replicate (n - b.length - 1) true

/-- `unpad(b)`: what stands before the last 0 (R266). -/
def unpad (b : Bits) : Except DriverFault Bits :=
  match b.reverse.dropWhile (fun x => x) with
  | [] => .error .noPadMarker
  | _ :: front => .ok front.reverse

/-! ### The ECB driver (R268–R271, R275) -/

/-- What happens before an access the driver makes (R70, R244), as in `agentStep`: with a command in flight and no latency
left it completes first; with latency left the access is one of the host steps counted. So whether the first write of a call
made while a command is in flight is dropped is the schedule's choice (R351). -/
def driverTurn (s : State) : Result :=
  match s.inflight, s.wait with
  | some f, 0 => exec f.cmd s
  | some _, n + 1 => .next { s with wait := n }
  | none, _ => .next s

/-- `WR reg, v` (R100), at its turn. No reset is asserted during a driver call, and the reset schedule is not counted down by
one [DESIGN CHOICE, log entry 26: when a reset comes is the platform's choice, R341]. -/
def driverWrite (r : Slot) (v : Word) (s : State) : DriverResult Unit :=
  match driverTurn s with
  | .fault _ | .refused _ => (.error .machineStopped, s)
  | .next t =>
    match hostWrite r v t with
    | .next u => (.ok (), u)
    | .fault _ | .refused _ => (.error .machineStopped, t)

/-- The read of STATUS that ends `WAIT` leaves it in h7 (R105). -/
def lastPoll (s : State) : State := setHostVar 7 (hostRead .status s) s

/-- `WAIT` (R105): when it ends, the command in flight has completed and h7 holds the STATUS read last. What it polls before
that has no other effect (R65), and the result is the same for every latency (R244): the polls are not counted, and no reset
comes between them [DESIGN CHOICE, log entries 19 and 26]. -/
def driverWait (s : State) : DriverResult Unit :=
  match engineStep s with
  | some (.next t) => (.ok (), lastPoll t)
  | some (.fault _) | some (.refused _) => (.error .machineStopped, s)
  | none => (.ok (), lastPoll s)

/-- `RD h0, reg` (R100), where no command is in flight. -/
def driverRead (r : Slot) (s : State) : State := setHostVar 0 (hostRead r s) s

/-- `RUN m`: `CMD m; WAIT; ASSERT h7[1] = 1` (R106). -/
def driverRun (i : Instr) (s : State) : DriverResult Unit :=
  match driverWrite .cmd (encode i) s with
  | (.error e, t) => (.error e, t)
  | (.ok _, t) =>
    match driverWait t with
    | (.error e, u) => (.error e, u)
    | (.ok _, u) => if u.hostVars[7].getLsbD 1 then (.ok (), u) else (.error .runFailed, u)

/-- `SETKEY k` (R107): every call loads its key anew (R269, R275). -/
def driverSetKey (k : Word) (s : State) : DriverResult Unit :=
  match driverWrite .key k s with
  | (.error e, t) => (.error e, t)
  | (.ok _, t) => driverRun .keyload t

/-- The key step of a driver that skips the KEYLOAD of a repeated key: only where KEY_VALID = 1 and KEY already holds that key
(R275). `encrypt` and `decrypt` do not use it. The rule does not say how such a driver learns KEY_VALID and KEY: here it reads
STATUS and KEY as they stand, the reads take no turn against a command in flight, count no latency down and write no host
variable [DESIGN CHOICE, log entry 20]. -/
def driverKeepKey (k : Word) (s : State) : DriverResult Unit :=
  if (hostRead .status s).getLsbD 2 && hostRead .key s == k then (.ok (), s) else driverSetKey k s

/-- One block through ENC or DEC: `WR DIN; RUN; RD h0, DOUT`, and the block is h0's value (R269, R270). -/
def driverBlock (i : Instr) (b : Word) (s : State) : DriverResult Word :=
  match driverWrite .din b s with
  | (.error e, t) => (.error e, t)
  | (.ok _, t) =>
    match driverRun i t with
    | (.error e, u) => (.error e, u)
    | (.ok _, u) =>
      let v := driverRead .dout u
      (.ok v.hostVars[0], v)

/-- The blocks of a message in order, each on its own (R269, R270, R272). -/
def driverBlocks (i : Instr) : List Word → State → DriverResult (List Word)
  | [], s => (.ok [], s)
  | b :: rest, s =>
    match driverBlock i b s with
    | (.error e, t) => (.error e, t)
    | (.ok w, t) =>
      match driverBlocks i rest t with
      | (.error e, u) => (.error e, u)
      | (.ok ws, u) => (.ok (w :: ws), u)

/-- `encrypt(message, key)` (R269): the key check, then SETKEY, then the padded message block by block through ENC. -/
def encrypt (message key : Text) (s : State) : DriverResult Text :=
  let kbits := textToBits key
  if kbits.length ≠ 64 then (.error (.fault .invalidKeyLength), s)
  else
    let b := pad (textToBits message)
    match driverSetKey (valueOfBits kbits) s with
    | (.error e, t) => (.error e, t)
    | (.ok _, t) =>
      match driverBlocks .enc (blocksOfBits (b.length / 64) b) t with
      | (.error e, u) => (.error e, u)
      | (.ok out, u) => (.ok (bitsToHex (out.flatMap bits64)), u)

/-- `bits_to_text(unpad(p))`, the end of `decrypt` (R270, R271). -/
def unpadToText (p : Bits) : Except DriverFault Text :=
  match unpad p with
  | .error e => .error e
  | .ok b => bitsToText b

/-- `decrypt(ciphertext_hex, key)` (R270), its checks in the order of R271. -/
def decrypt (ciphertext key : Text) (s : State) : DriverResult Text :=
  let kbits := textToBits key
  if kbits.length ≠ 64 then (.error (.fault .invalidKeyLength), s)
  else
    match hexToBits ciphertext with
    | .error e => (.error (.fault e), s)
    | .ok c =>
      if c.length % 64 ≠ 0 then (.error (.fault .invalidWidth), s)
      else
        match driverSetKey (valueOfBits kbits) s with
        | (.error e, t) => (.error e, t)
        | (.ok _, t) =>
          match driverBlocks .dec (blocksOfBits (c.length / 64) c) t with
          | (.error e, u) => (.error e, u)
          | (.ok out, u) =>
            match unpadToText (out.flatMap bits64) with
            | .error e => (.error (.fault e), u)
            | .ok t' => (.ok t', u)

end Sys2Proof.Machine
end

