-- ==== Sys2Proof/Safety.lean ====
section
/-! DEFINITION. The terms the claims are stated in: when the engine is idle, when a command is in flight, whose turn the
next step is, and the invariant that every step keeps (spec 10_state.md R39, R47, 44_control.md R241, R243). -/

namespace Sys2Proof.Machine

/-- No command is in flight (R37, R44). -/
def Idle (s : State) : Prop := s.busy = false ∧ s.inflight = none

/-- The command `i` is in flight with the operands captured at its acceptance (R44). -/
def InFlightIs (i : Instr) (key din : Word) (s : State) : Prop :=
  s.inflight = some { cmd := i, key := key, din := din }

/-- The platform asserts reset at the next step (R341). -/
def resetDue (s : State) : Bool :=
  match s.resets with
  | 0 :: _ => true
  | _ => false

/-- What is left of the reset schedule after one step that asserts no reset (R341). -/
def tickResets (l : List Nat) : List Nat :=
  match l with
  | (n + 1) :: rest => n :: rest
  | other => other

/-- An outcome after which its agent goes on. -/
def isNext (r : Result) : Bool :=
  match r with
  | .next _ => true
  | .fault _ | .refused _ => false

/-- The state the host's next statement runs in when the host moves: one step nearer to the completion and to the next
reset. -/
def hostTurnState (s : State) : State := { s with wait := s.wait - 1, resets := tickResets s.resets }

/-- The next step is the engine's completion step (R243): no reset is due, a command is in flight, and its latency has
passed or the host has no step: nothing left to do, or nothing it can do. -/
def engineTurn (s : State) : Bool :=
  !resetDue s && s.inflight.isSome && (s.program.isEmpty || s.wait == 0 || !isNext (hostStep (hostTurnState s)))

/-- The next step is a completion of the command `i` (R245). -/
def completesNext (i : Instr) (s : State) : Prop :=
  engineTurn s = true ∧ ∃ f, s.inflight = some f ∧ f.cmd = i

/-- The commands whose completion writes DOUT (R34). -/
def producesResult : Instr → Bool
  | .enc | .dec | .permIp | .permFp | .permE | .permP | .permPc1 | .permPc2 => true
  | .sbox | .ksrot _ | .ffunc _ | .round _ | .skread _ => true
  | .nop | .keyload | .keyclr | .clrerr => false

/-- What every reachable state satisfies. -/
structure StateInvariant (s : State) : Prop where
  /-- BUSY says whether a command is in flight (R47). -/
  busy_iff : s.busy = s.inflight.isSome
  /-- The captured operands are the live registers: no write is admitted while busy (R241). -/
  captured : ∀ f, s.inflight = some f → f.key = s.key ∧ f.din = s.din
  /-- What is in flight has a command word and passed the key check (R240). -/
  admitted : ∀ f, s.inflight = some f → f.cmd.wellFormed = true ∧ (needsKey f.cmd = true → s.keyValid = true)
  /-- KEY_VALID = 1 only while SK holds the schedule of the current KEY (R39). -/
  schedule : s.keyValid = true → s.sk = keySchedule s.key
  /-- ERR takes only the values 0..4 (R36, R301). -/
  err_range : s.err.toNat ≤ 4
  /-- DONE is 0 while a command is in flight (R38). -/
  not_done : s.busy = true → s.done = false

/-- Two states that differ in nothing but the contents of SK, while KEY_VALID = 0 (R42, R342). -/
def SameButInvalidSchedule (s t : State) : Prop := s.keyValid = false ∧ t = { s with sk := t.sk }

end Sys2Proof.Machine
end

