-- ==== Sys2Proof/Certificates/Slice0/Obligations.lean ====
section
/-! DEFINITION. The statements about the machine. Each docstring says which sentences of the spec the statement formalises. -/

open Sys2Proof Sys2Proof.Machine

/-! ### Encoding -/

/-- Decoding the word of a command that has one gives the command back, with its index at every value 0..15
(30_encoding.md sections 1 to 3). -/
def Obligations.DecodeOfEncodeIsTheCommand : Prop :=
  ∀ i : Instr, i.wellFormed = true → decode (encode i) = .ok i

/-- A word means at most one command: whatever the decoder accepts is the word `asm` makes of what it answers
(30_encoding.md sections 1 to 3). -/
def Obligations.EncodeOfDecodeIsTheWord : Prop :=
  ∀ (w : Word) (i : Instr), decode w = .ok i → i.wellFormed = true ∧ encode i = w

/-- R306: the 239 OPC values outside the opcode map, whatever the other 56 bits are. -/
def Obligations.UnassignedOpcodeIsIllegal : Prop :=
  (∀ w : Word, decode w = .error .illegal ↔
    opcField w ∉ ([0x00, 0x01, 0x02, 0x03, 0x10, 0x11, 0x20, 0x21, 0x22, 0x23, 0x24, 0x25, 0x26, 0x27, 0x30, 0x31, 0x32] :
      List (BitVec 8))) ∧
  ∀ (w : Word) (s : State), s.busy = false → decode w = .error .illegal →
    hostWrite .cmd w s = .next { s with done := false, err := if s.err = 0 then 1 else s.err }

/-- R307: an assigned OPC with a bit set in 63:8 (format Z) or 63:12 (format I). -/
def Obligations.ReservedBitsAreRejected : Prop :=
  (∀ w : Word, decode w = .error .reserved ↔
    (opcField w ∈ ([0x00, 0x01, 0x02, 0x03, 0x10, 0x11, 0x20, 0x21, 0x22, 0x23, 0x24, 0x25, 0x26] : List (BitVec 8)) ∧
      w >>> 8 ≠ 0) ∨
    (opcField w ∈ ([0x27, 0x30, 0x31, 0x32] : List (BitVec 8)) ∧ w >>> 12 ≠ 0)) ∧
  ∀ (w : Word) (s : State), s.busy = false → decode w = .error .reserved →
    hostWrite .cmd w s = .next { s with done := false, err := if s.err = 0 then 2 else s.err }

/-- Command words the spec writes out, one or more of each family (30_encoding.md R102, files 40 to 44), and the two kinds
of word it rejects (60_exceptions.md R306, R307). -/
def Obligations.WrittenOutWordsDecode : Prop :=
  decode 0x0000000000000000 = .ok .nop ∧ decode 0x0000000000000003 = .ok .clrerr ∧
  decode 0x0000000000000001 = .ok .keyload ∧ decode 0x0000000000000002 = .ok .keyclr ∧
  decode 0x0000000000000227 = .ok (.ksrot 2) ∧ decode 0x0000000000000F32 = .ok (.skread 15) ∧
  decode 0x0000000000000010 = .ok .enc ∧ decode 0x0000000000000011 = .ok .dec ∧
  decode 0x0000000000000030 = .ok (.ffunc 0) ∧ decode 0x0000000000000531 = .ok (.round 5) ∧
  decode 0x0000000000000020 = .ok .permIp ∧ decode 0x0000000000000025 = .ok .permPc2 ∧
  decode 0x0000000000000026 = .ok .sbox ∧
  decode 0xFFFFFFFFFFFFFF04 = .error .illegal ∧ decode 0x0000000000001031 = .error .reserved

/-- An index outside 0..15 has no word, and its command is not run (30_encoding.md section 3). The refusal is the model's
(log entry 11). -/
def Obligations.IndexOutsideRangeHasNoWord : Prop :=
  ∀ (i : Instr) (s : State), i.wellFormed = false →
    indexOf i ≥ 16 ∧ asm i = none ∧ exec i s = .refused .assemblyError ∧ runStmt (.cmd i) s = .refused .assemblyError

/-! ### The CMD write -/

/-- What a host write to CMD does in each case, and a write to any slot while busy (44_control.md section 1,
60_exceptions.md section 2). The number of host steps until completion is the model's free value, of which only the existence
is stated; that an acceptance takes one entry off `latencies` and counts one draw is the model's choice (log entry 4). -/
def Obligations.CmdWriteProcedure : Prop :=
  ∀ (w : Word) (s : State),
    (s.busy = true → ∀ (r : Slot) (v : Word),
      hostWrite r v s = .next { s with err := if s.err = 0 then 4 else s.err }) ∧
    (s.busy = false → ∀ c, decode w = .error c →
      hostWrite .cmd w s = .next { s with done := false, err := if s.err = 0 then c.code else s.err }) ∧
    (Idle s → ∀ i, decode w = .ok i →
      (needsKey i = true ↔ i = .enc ∨ i = .dec ∨ ∃ idx, i = .ffunc idx ∨ i = .round idx ∨ i = .skread idx) ∧
      (needsKey i = true → s.keyValid = false →
        hostWrite .cmd w s = .next { s with done := false, err := if s.err = 0 then 3 else s.err }) ∧
      ((needsKey i = true → s.keyValid = true) →
        ∃ n, hostWrite .cmd w s = .next { s with
          done := false
          inflight := some { cmd := i, key := s.key, din := s.din }
          busy := true
          wait := n
          latencies := s.latencies.tail
          draws := s.draws + 1 }))

/-- R305: while BUSY = 1 a write to any slot is dropped with ERR_BUSY, and a read is admitted and records nothing. -/
def Obligations.WritesWhileBusyAreDropped : Prop :=
  ∀ (s : State) (r : Slot), s.busy = true →
    (∀ v, hostWrite r v s = .next { s with err := if s.err = 0 then 4 else s.err }) ∧
    (∀ n, runStmt (.rd n r) s = .next { s with hostVars := s.hostVars.set n (hostRead r s) })

/-- R310: from ERR = 0, the one code a host write leaves is the first that applies of BUSY, ILLEGAL, RESERVED, NOKEY, and
none where none applies; the last three apply to a CMD write only. -/
def Obligations.FirstErrorThatAppliesIsReported : Prop :=
  ∀ (r : Slot) (w : Word) (s : State), s.err = 0 → (s.busy = false → s.inflight = none) →
    ∃ t, hostWrite r w s = .next t ∧
      t.err =
        if s.busy then 4
        else if r ≠ .cmd then 0
        else if lookup (opcField w) (idxField w) = none then 1
        else
          match decode w with
          | .error _ => 2
          | .ok i => if needsKey i && !s.keyValid then 3 else 0

/-- A command run at its CMD write, to an idle engine: accepted where it needs no key or has one, else rejected with
ERR_NOKEY (44_control.md section 1). That `exec` is the CMD write here, and the free latency, are the model's choice (log
entries 4 and 5). -/
def Obligations.ExecAtTheWriteAcceptsOrRejects : Prop :=
  ∀ (i : Instr) (s : State), i.wellFormed = true → Idle s →
    ((needsKey i = true → s.keyValid = true) →
      ∃ n, exec i s = .next { s with
        done := false
        inflight := some { cmd := i, key := s.key, din := s.din }
        busy := true
        wait := n
        latencies := s.latencies.tail
        draws := s.draws + 1 }) ∧
    (needsKey i = true → s.keyValid = false →
      exec i s = .next { s with done := false, err := if s.err = 0 then 3 else s.err })

/-! ### The completion of each command -/

/-- NOP and CLRERR: nothing but the end of the command, and ERR ← 0 (44_control.md section 3). -/
def Obligations.ControlCommandsComplete : Prop :=
  ∀ (s : State) (key din : Word),
    (InFlightIs .nop key din s →
      exec .nop s = .next { s with inflight := none, busy := false, done := true, wait := 0 }) ∧
    (InFlightIs .clrerr key din s →
      exec .clrerr s = .next { s with err := 0, inflight := none, busy := false, done := true, wait := 0 })

/-- KEYLOAD: `SK <- KS(key); KEY_VALID <- 1` (42_key_schedule.md section 2). -/
def Obligations.KeyloadFillsTheSubkeyFile : Prop :=
  ∀ (s : State) (key din : Word), InFlightIs .keyload key din s →
    exec .keyload s = .next { s with
      sk := keySchedule key, keyValid := true, inflight := none, busy := false, done := true, wait := 0 }

/-- KEYCLR: every subkey 0 and KEY_VALID ← 0 (42_key_schedule.md section 2). -/
def Obligations.KeyclrZeroesTheSubkeyFile : Prop :=
  ∀ (s : State) (key din : Word), InFlightIs .keyclr key din s →
    exec .keyclr s = .next { s with
      sk := Vector.replicate 16 0, keyValid := false, inflight := none, busy := false, done := true, wait := 0 }

/-- ENC and DEC: `DOUT <- ENCB(SK, din)` and `DOUT <- DECB(SK, din)` (43_feistel.md section 2). -/
def Obligations.EncAndDecWriteTheBlock : Prop :=
  ∀ (s : State) (key din : Word),
    (InFlightIs .enc key din s →
      exec .enc s = .next { s with
        dout := encryptBlock s.sk din, inflight := none, busy := false, done := true, wait := 0 }) ∧
    (InFlightIs .dec key din s →
      exec .dec s = .next { s with
        dout := decryptBlock s.sk din, inflight := none, busy := false, done := true, wait := 0 })

/-- The six permutation commands: the table applied to the low bits of the operand, zero-extended into DOUT
(40_permutation_units.md section 3). -/
def Obligations.PermutationCommandsWriteTheirResult : Prop :=
  ∀ (s : State) (key din : Word),
    (InFlightIs .permIp key din s →
      exec .permIp s = .next { s with
        dout := perm ipTable 64 din, inflight := none, busy := false, done := true, wait := 0 }) ∧
    (InFlightIs .permFp key din s →
      exec .permFp s = .next { s with
        dout := perm fpTable 64 din, inflight := none, busy := false, done := true, wait := 0 }) ∧
    (InFlightIs .permE key din s →
      exec .permE s = .next { s with
        dout := (perm eTable 48 (din.setWidth 32)).setWidth 64
        inflight := none, busy := false, done := true, wait := 0 }) ∧
    (InFlightIs .permP key din s →
      exec .permP s = .next { s with
        dout := (perm pTable 32 (din.setWidth 32)).setWidth 64
        inflight := none, busy := false, done := true, wait := 0 }) ∧
    (InFlightIs .permPc1 key din s →
      exec .permPc1 s = .next { s with
        dout := (perm pc1Table 56 din).setWidth 64
        inflight := none, busy := false, done := true, wait := 0 }) ∧
    (InFlightIs .permPc2 key din s →
      exec .permPc2 s = .next { s with
        dout := (perm pc2Table 48 (din.setWidth 56)).setWidth 64
        inflight := none, busy := false, done := true, wait := 0 })

/-- SBOX: the substitution of the low 48 bits, zero-extended into DOUT (41_substitution.md section 3). -/
def Obligations.SboxWritesTheSubstitution : Prop :=
  ∀ (s : State) (key din : Word), InFlightIs .sbox key din s →
    exec .sbox s = .next { s with
      dout := (substitute (din.setWidth 48)).setWidth 64
      inflight := none, busy := false, done := true, wait := 0 }

/-- KSROT: each 28-bit half of the low 56 bits rotated by the index's shift, 1 for indexes 0, 1, 8 and 15 and 2 for the
others (42_key_schedule.md section 2). -/
def Obligations.KsrotRotatesBothHalves : Prop :=
  ∀ (s : State) (key din : Word) (idx : Nat), idx < 16 → InFlightIs (.ksrot idx) key din s →
    exec (.ksrot idx) s = .next { s with
      dout :=
        (rotl28 (din.extractLsb' 28 28) (if idx = 0 ∨ idx = 1 ∨ idx = 8 ∨ idx = 15 then 1 else 2) ++
          rotl28 (din.extractLsb' 0 28) (if idx = 0 ∨ idx = 1 ∨ idx = 8 ∨ idx = 15 then 1 else 2)).setWidth 64
      inflight := none, busy := false, done := true, wait := 0 }

/-- SKREAD: `DOUT <- zext64(SK[idx])` (42_key_schedule.md section 2). -/
def Obligations.SkreadWritesTheSubkey : Prop :=
  ∀ (s : State) (key din : Word) (idx : Nat) (h : idx < 16), InFlightIs (.skread idx) key din s →
    exec (.skread idx) s = .next { s with
      dout := (s.sk[idx]).setWidth 64, inflight := none, busy := false, done := true, wait := 0 }

/-- FFUNC and ROUND: `f(R, SK[idx])`, and `R ‖ (L ⊕ f(R, SK[idx]))` (43_feistel.md section 2). -/
def Obligations.FfuncAndRoundWriteTheirResult : Prop :=
  ∀ (s : State) (key din : Word) (idx : Nat) (h : idx < 16),
    (InFlightIs (.ffunc idx) key din s →
      exec (.ffunc idx) s = .next { s with
        dout := (feistel (din.setWidth 32) s.sk[idx]).setWidth 64
        inflight := none, busy := false, done := true, wait := 0 }) ∧
    (InFlightIs (.round idx) key din s →
      exec (.round idx) s = .next { s with
        dout := din.extractLsb' 0 32 ++ (din.extractLsb' 32 32 ^^^ feistel (din.extractLsb' 0 32) s.sk[idx])
        inflight := none, busy := false, done := true, wait := 0 })

/-- The frame of every command, whichever of its phases runs. KEY, DIN, the host's variables and program and the reset
schedule never change. SK and KEY_VALID change only by KEYLOAD and KEYCLR in flight, DOUT only by a result-producing
command in flight, and in flight ERR only by CLRERR (10_state.md section 1, 30_encoding.md section 2). -/
def Obligations.CommandFrame : Prop :=
  ∀ (i : Instr) (s t : State), exec i s = .next t →
    t.key = s.key ∧ t.din = s.din ∧ t.hostVars = s.hostVars ∧ t.program = s.program ∧ t.resets = s.resets ∧
    (i ≠ .keyload → i ≠ .keyclr → t.sk = s.sk ∧ t.keyValid = s.keyValid) ∧
    (producesResult i = false → t.dout = s.dout) ∧
    ((∃ key din, InFlightIs i key din s) → i ≠ .clrerr → t.err = s.err) ∧
    ((¬ ∃ key din, InFlightIs i key din s) → t.sk = s.sk ∧ t.keyValid = s.keyValid ∧ t.dout = s.dout)

/-! ### The units -/

/-- R120: bit by bit, what a permutation unit does, for every table. -/
def Obligations.PermutationCopiesTableBits : Prop :=
  ∀ (table : List Nat) (win : Nat) (v : BitVec win) (i : Nat) (h : i < table.length),
    (perm table table.length v).getLsbD (table.length - (i + 1)) = v.getLsbD (win - table[i])

/-- R129: length and range for all six tables, injective for five, bijective for three, and E not injective. -/
def Obligations.PermutationTableInvariants : Prop :=
  (ipTable.length = 64 ∧ fpTable.length = 64 ∧ eTable.length = 48 ∧ pTable.length = 32 ∧ pc1Table.length = 56 ∧
    pc2Table.length = 48) ∧
  ((∀ t ∈ ipTable, 1 ≤ t ∧ t ≤ 64) ∧ (∀ t ∈ fpTable, 1 ≤ t ∧ t ≤ 64) ∧ (∀ t ∈ eTable, 1 ≤ t ∧ t ≤ 32) ∧
    (∀ t ∈ pTable, 1 ≤ t ∧ t ≤ 32) ∧ (∀ t ∈ pc1Table, 1 ≤ t ∧ t ≤ 64) ∧ (∀ t ∈ pc2Table, 1 ≤ t ∧ t ≤ 56)) ∧
  (ipTable.Nodup ∧ fpTable.Nodup ∧ pTable.Nodup ∧ pc1Table.Nodup ∧ pc2Table.Nodup) ∧
  ((∀ n, 1 ≤ n → n ≤ 64 → ipTable.count n = 1) ∧ (∀ n, 1 ≤ n → n ≤ 64 → fpTable.count n = 1) ∧
    (∀ n, 1 ≤ n → n ≤ 32 → pTable.count n = 1)) ∧
  ¬ eTable.Nodup ∧ ((List.range 33).filter fun n => eTable.count n = 2).length = 16

/-- R124: FP undoes IP and IP undoes FP; equivalently FP[IP[i]] = i. -/
def Obligations.FinalPermutationInvertsInitial : Prop :=
  (∀ v : Word, permFp (permIp v) = v ∧ permIp (permFp v) = v) ∧
  ∀ i, 1 ≤ i → i ≤ 64 → fpTable.getD (ipTable.getD (i - 1) 0 - 1) 0 = i

/-- R163: output nibble k is S-box k+1's entry for input group k, and depends on that group only. Row and column are the
group's first and last, and its middle four, bits. -/
def Obligations.SubstitutionLanesAreIndependent : Prop :=
  ∀ (x y : Subkey) (k : Fin 8),
    ((substitute x).extractLsb' (28 - 4 * k.val) 4).toNat =
      (#v[s1Table, s2Table, s3Table, s4Table, s5Table, s6Table, s7Table, s8Table])[k].getD
        (((x.getLsbD (47 - 6 * k.val)).toNat * 2 + (x.getLsbD (42 - 6 * k.val)).toNat) * 16 +
          (x.extractLsb' (43 - 6 * k.val) 4).toNat) 0 ∧
    (x.extractLsb' (42 - 6 * k.val) 6 = y.extractLsb' (42 - 6 * k.val) 6 →
      (substitute x).extractLsb' (28 - 4 * k.val) 4 = (substitute y).extractLsb' (28 - 4 * k.val) 4)

/-- R180 and R182: the shift of each round; each half rotated on its own toward DES bit 1, which wraps to DES bit 28. -/
def Obligations.RoundRotationOfTheHalves : Prop :=
  ∀ (cd : KeyState) (i : Fin 16),
    shiftsTable[i] = (if i.val = 0 ∨ i.val = 1 ∨ i.val = 8 ∨ i.val = 15 then 1 else 2) ∧
    ∀ n, 1 ≤ n → n ≤ 28 →
      desBit (keyLeft (rotateHalves cd i)) n =
        desBit cd (if n + shiftsTable[i] ≤ 28 then n + shiftsTable[i] else n + shiftsTable[i] - 28) ∧
      desBit (keyRight (rotateHalves cd i)) n =
        desBit cd (28 + if n + shiftsTable[i] ≤ 28 then n + shiftsTable[i] else n + shiftsTable[i] - 28)

/-- R185: the shifts sum to 28, so C_16 = C_0 and D_16 = D_0 for every key. -/
def Obligations.HalvesReturnToTheirStart : Prop :=
  shiftsTable.toList.sum = 28 ∧
  ∀ key : Word, keyLeft (keyState key 16) = keyLeft (keyState key 0) ∧
    keyRight (keyState key 16) = keyRight (keyState key 0)

/-- Each subkey is PC-2 of the halves of PC-1 of the key, rotated left by the sum of the shifts so far: what carries
forward is C‖D, never the subkey (42_key_schedule.md section 1). -/
def Obligations.SubkeyIsPc2OfTheTotalRotation : Prop :=
  ∀ (key : Word) (i : Fin 16),
    (keySchedule key)[i] =
      permPc2 ((keyLeft (permPc1 key)).rotateLeft (shiftsTable.toList.take (i.val + 1)).sum ++
        (keyRight (permPc1 key)).rotateLeft (shiftsTable.toList.take (i.val + 1)).sum)

/-- R187: (a) parity bits do not matter; (b) the keys 0 and all ones; (c) keys whose C_0 and D_0 are each all zeros or all
ones have sixteen equal subkeys, and encrypt and decrypt alike, the four examples among them. -/
def Obligations.KeyScheduleProperties : Prop :=
  (∀ key m : Word, m &&& 0x0101010101010101 = m → keySchedule (key ^^^ m) = keySchedule key) ∧
  (∀ i : Fin 16, (keySchedule 0)[i] = 0 ∧ (keySchedule 0xFFFFFFFFFFFFFFFF)[i] = 0xFFFFFFFFFFFF) ∧
  (∀ key : Word,
    (keyLeft (permPc1 key) = 0 ∨ keyLeft (permPc1 key) = 0xFFFFFFF) →
    (keyRight (permPc1 key) = 0 ∨ keyRight (permPc1 key) = 0xFFFFFFF) →
    (∀ i j : Fin 16, (keySchedule key)[i] = (keySchedule key)[j]) ∧
    ∀ b, encryptBlock (keySchedule key) b = decryptBlock (keySchedule key) b) ∧
  ∀ key ∈ ([0x0101010101010101, 0xFEFEFEFEFEFEFEFE, 0x1F1F1F1F0E0E0E0E, 0xE0E0E0E0F1F1F1F1] : List Word),
    (keyLeft (permPc1 key) = 0 ∨ keyLeft (permPc1 key) = 0xFFFFFFF) ∧
    (keyRight (permPc1 key) = 0 ∨ keyRight (permPc1 key) = 0xFFFFFFF)

/-- R216: under one key's schedule decryption undoes encryption and encryption undoes decryption. -/
def Obligations.DecryptionInvertsEncryption : Prop :=
  ∀ k b : Word,
    decryptBlock (keySchedule k) (encryptBlock (keySchedule k) b) = b ∧
    encryptBlock (keySchedule k) (decryptBlock (keySchedule k) b) = b

/-- R217: the complementation law. -/
def Obligations.ComplementationLaw : Prop :=
  ∀ k b : Word, encryptBlock (keySchedule (~~~k)) (~~~b) = ~~~(encryptBlock (keySchedule k) b)

/-- R218: the parity bits of the key change no block, in either direction. -/
def Obligations.ParityBitsChangeNoBlock : Prop :=
  ∀ k m b : Word, m &&& 0x0101010101010101 = m →
    encryptBlock (keySchedule (k ^^^ m)) b = encryptBlock (keySchedule k) b ∧
    decryptBlock (keySchedule (k ^^^ m)) b = decryptBlock (keySchedule k) b

/-- The source's known-answer vector, both directions (95_test_vectors.md section 1, V1). -/
def Obligations.KnownAnswerVector : Prop :=
  encryptBlock (keySchedule 0x0123456789ABCDEF) 0x4E6F772069732074 = 0x3FA40E8A984D4815 ∧
  decryptBlock (keySchedule 0x0123456789ABCDEF) 0x3FA40E8A984D4815 = 0x4E6F772069732074

/-- ENC is PERM_IP, ROUND 0 … ROUND 15 in turn, a swap of the 32-bit halves, and PERM_FP; DEC the same with ROUND 15 …
ROUND 0 (43_feistel.md section 2, corner cases of ROUND). -/
def Obligations.EncIsSixteenRoundCommands : Prop :=
  ∀ (sk : Vector Subkey 16) (b : Word),
    encryptBlock sk b = permFp (((sk.toList.foldl roundBlock (permIp b))).rotateLeft 32) ∧
    decryptBlock sk b = permFp (((sk.toList.reverse.foldl roundBlock (permIp b))).rotateLeft 32)

/-! ### The bus -/

/-- R64: what a read of each slot returns, and what a write of each slot does when not busy. -/
def Obligations.SlotReadsAndWrites : Prop :=
  ∀ s : State,
    (hostRead .key s = s.key ∧ hostRead .din s = s.din ∧ hostRead .dout s = s.dout ∧ hostRead .cmd s = 0 ∧
      hostRead .status s =
        BitVec.ofNat 64 (s.busy.toNat + 2 * s.done.toNat + 4 * s.keyValid.toNat + 16 * s.err.toNat) ∧
      hostRead .rsv5 s = 0 ∧ hostRead .rsv6 s = 0 ∧ hostRead .rsv7 s = 0) ∧
    (s.busy = false → ∀ v : Word,
      hostWrite .key v s = .next { s with key := v, keyValid := false } ∧
      hostWrite .din v s = .next { s with din := v } ∧
      hostWrite .cmd v s = cmdWrite v s ∧
      hostWrite .dout v s = .next s ∧ hostWrite .status v s = .next s ∧
      hostWrite .rsv5 v s = .next s ∧ hostWrite .rsv6 v s = .next s ∧ hostWrite .rsv7 v s = .next s) ∧
    (s.busy = true → ∀ (r : Slot) (v : Word),
      hostWrite r v s = .next { s with err := if s.err = 0 then 4 else s.err })

/-- R65: reads have no side effect, so a repeated one returns the same; DIN and KEY writes may be repeated; a CMD write may
not, because each one starts or rejects a command; the other writes do nothing. -/
def Obligations.ReadsAndRepeatedWrites : Prop :=
  (∀ (s : State) (n : Fin 8) (r : Slot),
    runStmt (.rd n r) s = .next { s with hostVars := s.hostVars.set n (hostRead r s) } ∧
    hostRead r { s with hostVars := s.hostVars.set n (hostRead r s) } = hostRead r s) ∧
  (∀ (s t : State) (v : Word), s.busy = false →
    (hostWrite .din v s = .next t → hostWrite .din v t = .next t) ∧
    (hostWrite .key v s = .next t → t.keyValid = false ∧ hostWrite .key v t = .next t)) ∧
  (∀ (s : State) (w : Word), Idle s → ∃ t, hostWrite .cmd w s = .next t ∧
    ((t.busy = true ∧ t.inflight.isSome = true) ∨
      (t.busy = false ∧ t.inflight = none ∧ t.done = false ∧ t.err ≠ 0))) ∧
  (∀ (s t u : State) (w : Word), Idle s → s.err = 0 → hostWrite .cmd w s = .next t → t.busy = true →
    hostWrite .cmd w t = .next u → u ≠ t) ∧
  (∀ (s : State) (v : Word), s.busy = false → ∀ r ∈ [Slot.dout, .status, .rsv5, .rsv6, .rsv7],
    hostWrite r v s = .next s)

/-- Which host accesses the bus admits, for every base address: an aligned 8-byte access of the window reaches its slot,
any other access of the window has no transition, and an access outside has no meaning (20_memory.md section 1). The names of the stops, and width before alignment, are the model's (log entry 9). -/
def Obligations.OnlyAlignedWordAccessesAreAdmitted : Prop :=
  (∀ (r : Slot) (v : Word) (n : Fin 8) (s : State),
    busWrite (slotAddress Config.deseBase r) 8 v s = hostWrite r v s ∧
    busRead n (slotAddress Config.deseBase r) 8 s = runStmt (.rd n r) s) ∧
  ∀ (addr width : Nat) (v : Word) (n : Fin 8) (s : State),
    ((addr < Config.deseBase ∨ Config.deseBase + 64 ≤ addr) →
      busWrite addr width v s = .refused .outsideWindow ∧ busRead n addr width s = .refused .outsideWindow) ∧
    (Config.deseBase ≤ addr → addr < Config.deseBase + 64 → width ≠ 8 →
      busWrite addr width v s = .fault .badAccessWidth ∧ busRead n addr width s = .fault .badAccessWidth) ∧
    (Config.deseBase ≤ addr → addr < Config.deseBase + 64 → (addr - Config.deseBase) % 8 ≠ 0 →
      busWrite addr 8 v s = .fault .misalignedAccess ∧ busRead n addr 8 s = .fault .misalignedAccess) ∧
    (Config.deseBase ≤ addr → addr < Config.deseBase + 64 → (addr - Config.deseBase) % 8 = 0 →
      ∃ r : Slot, addr = slotAddress Config.deseBase r)

/-! ### The step -/

/-- A step runs the host's next statement, whatever it is: when no command is in flight, and while one is in flight with
latency left (20_memory.md section 5, 44_control.md section 2). Around it the step takes the statement off the program and
counts down the latency and the reset schedule (the model's fields, log entries 3, 4 and 6). Where the host has no step the
engine's still comes, and time passes to a reset that is still to come; else the run ends with the host's stop (log entry 27).
When the statement writes a command word to an idle engine, the step runs the decoded command (44_control.md section 1). -/
def Obligations.StepRunsTheCommandWritten : Prop :=
  (∀ (s : State) (st : HostStmt) (rest : List HostStmt),
    resetDue s = false → s.program = st :: rest → s.inflight = none →
    (∀ t, runStmt st { s with program := rest, resets := tickResets s.resets } = .next t → step s = .next t) ∧
    (s.resets = [] → step s = runStmt st { s with program := rest }) ∧
    (s.resets ≠ [] → (∀ t, runStmt st { s with program := rest, resets := tickResets s.resets } ≠ .next t) →
      step s = .next { s with resets := tickResets s.resets })) ∧
  (∀ (s : State) (f : InFlight) (n : Nat) (st : HostStmt) (rest : List HostStmt),
    resetDue s = false → s.program = st :: rest → s.inflight = some f → s.wait = n + 1 →
    (∀ t, runStmt st { s with program := rest, wait := n, resets := tickResets s.resets } = .next t → step s = .next t) ∧
    ((∀ t, runStmt st { s with program := rest, wait := n, resets := tickResets s.resets } ≠ .next t) →
      step s = exec f.cmd { s with resets := tickResets s.resets })) ∧
  ∀ (s : State) (w : Word) (i : Instr) (rest : List HostStmt) (v : Src),
    Idle s → resetDue s = false → v.value s = w → decode w = .ok i →
    (s.program = .wr .cmd v :: rest ∨ s.program = .memWrite (slotAddress Config.deseBase .cmd) 8 v :: rest ∨
      s.program = .cmd i :: rest) →
    step s = exec i { s with program := rest, resets := tickResets s.resets }

/-- The engine's step runs the command in flight; around it the step counts down the reset schedule (44_control.md section 2;
when it is the engine's turn is settled by the model's fields and by whether the host has a step, log entries 4, 6, 7 and
27). -/
def Obligations.StepRunsTheCommandInFlight : Prop :=
  ∀ (s : State) (f : InFlight), engineTurn s = true → s.inflight = some f →
    step s = exec f.cmd { s with resets := tickResets s.resets }

/-- A table word put where the next step takes its command from is run by that step (30_encoding.md sections 1 to 3; how a
word is placed is the model's choice, log entry 3). -/
def Obligations.StepRunsThePlacedWord : Prop :=
  ∀ (s : State) (nbits w : Nat) (i : Instr), decodeTableWord nbits w = some i →
    ∃ r, step (s.withFetchWord nbits w) = exec i { s with inflight := none, busy := false, wait := 0, resets := r }

/-- Every step keeps the invariant: BUSY says whether a command is in flight (10_state.md R47), its captured operands are
the live registers (44_control.md R241), KEY_VALID = 1 only with the schedule of the current KEY in SK (10_state.md R39),
ERR stays within 0..4 (R36), and DONE is 0 while busy (R38). -/
def Obligations.EveryStepKeepsTheInvariant : Prop :=
  ∀ s t : State, StateInvariant s → step s = .next t → StateInvariant t

/-- The invariant holds right after reset (10_state.md section 1, 70_reset_and_hazards.md section 1). -/
def Obligations.ResetSatisfiesTheInvariant : Prop := StateInvariant State.reset

/-- R340: the reset values the spec gives. SK's is unspecified and not stated. -/
def Obligations.ResetValues : Prop :=
  State.reset.key = 0 ∧ State.reset.din = 0 ∧ State.reset.dout = 0 ∧ hostRead .cmd State.reset = 0 ∧
  State.reset.busy = false ∧ State.reset.done = false ∧ State.reset.keyValid = false ∧ State.reset.err = 0 ∧
  hostRead .status State.reset = 0 ∧ State.reset.inflight = none

/-- Reset, asserted at any time, discards the command in flight and leaves the registers at their reset values
(70_reset_and_hazards.md section 1). When it is asserted, and that the host's variables and program go on, are the model's
choice (log entries 6 and 22). SK's contents after reset are unspecified and not stated. -/
def Obligations.ResetDiscardsTheCommandInFlight : Prop :=
  ∀ s : State, resetDue s = true →
    ∃ t, step s = .next t ∧ t.key = 0 ∧ t.din = 0 ∧ t.dout = 0 ∧ t.busy = false ∧ t.done = false ∧
      t.keyValid = false ∧ t.err = 0 ∧ hostRead .status t = 0 ∧ hostRead .cmd t = 0 ∧ t.inflight = none ∧
      t.hostVars = s.hostVars ∧ t.program = s.program

/-- ERR keeps the first error: a recorded code changes only to 0, and only by a completing CLRERR or a reset
(60_exceptions.md section 2). -/
def Obligations.ErrIsSticky : Prop :=
  ∀ s t : State, StateInvariant s → step s = .next t → s.err ≠ 0 → t.err ≠ s.err →
    t.err = 0 ∧ (resetDue s = true ∨ completesNext .clrerr s)

/-- DOUT is written only by the completion step of a result-producing command, and by reset (10_state.md section 1). -/
def Obligations.DoutChangesOnlyAtACompletion : Prop :=
  ∀ s t : State, StateInvariant s → step s = .next t → t.dout ≠ s.dout →
    resetDue s = true ∨ ∃ i, producesResult i = true ∧ completesNext i s

/-- SK is written only by the completion steps of KEYLOAD and KEYCLR, and by reset, where its contents are open
(10_state.md section 3). -/
def Obligations.SubkeysChangeOnlyByKeyloadOrKeyclr : Prop :=
  ∀ s t : State, StateInvariant s → step s = .next t → t.sk ≠ s.sk →
    resetDue s = true ∨ completesNext .keyload s ∨ completesNext .keyclr s

/-- KEY_VALID's three writers: it becomes 1 only by a completing KEYLOAD, with the schedule of the KEY held, and 0 only by a
completing KEYCLR, the host's next statement when it is a KEY write, which stores its value, or reset (10_state.md section 1, 70_reset_and_hazards.md section 1). -/
def Obligations.KeyValidWriters : Prop :=
  ∀ s t : State, StateInvariant s → step s = .next t →
    (s.keyValid = false → t.keyValid = true → completesNext .keyload s ∧ t.sk = keySchedule s.key) ∧
    (s.keyValid = true → t.keyValid = false →
      resetDue s = true ∨ completesNext .keyclr s ∨
      (s.busy = false ∧ ∃ x p,
        (s.program = .wr .key x :: p ∨ s.program = .memWrite (slotAddress Config.deseBase .key) 8 x :: p) ∧
        t = { s with key := x.value s, keyValid := false, program := p, resets := tickResets s.resets }))

/-- While a command is in flight, and until the step that completes it, no host access changes KEY, DIN, DOUT, SK,
KEY_VALID or the command (44_control.md section 2, 70_reset_and_hazards.md section 3). -/
def Obligations.RegistersAreStableInFlight : Prop :=
  ∀ s t : State, StateInvariant s → step s = .next t → s.busy = true → t.busy = true →
    t.key = s.key ∧ t.din = s.din ∧ t.dout = s.dout ∧ t.sk = s.sk ∧ t.keyValid = s.keyValid ∧
    t.inflight = s.inflight ∧ t.done = s.done

/-- What SK holds while KEY_VALID = 0 cannot be observed: two states that differ in nothing else read the same in every
slot, and a step keeps them so, or makes them equal, or stops both in the same way (70_reset_and_hazards.md section 1). -/
def Obligations.InvalidScheduleIsNotObservable : Prop :=
  ∀ s t : State, StateInvariant s → SameButInvalidSchedule s t →
    (∀ r, hostRead r s = hostRead r t) ∧
    (∀ s', step s = .next s' → ∃ t', step t = .next t' ∧ (t' = s' ∨ SameButInvalidSchedule s' t')) ∧
    (∀ e, step s = .fault e → step t = .fault e) ∧
    (∀ e, step s = .refused e → step t = .refused e)

/-- `RUN m` from an idle engine that accepts `m` ends, for every latency: after finitely many steps the command has
completed with the effect it has whatever the latency, and h7 holds the STATUS read last (30_encoding.md section 3,
44_control.md section 2). The latency is the model's free value and the run meets no reset (log entries 4 and 6). -/
def Obligations.RunCompletesForEveryLatency : Prop :=
  ∀ (s : State) (i : Instr) (rest : List HostStmt),
    StateInvariant s → Idle s → i.wellFormed = true → (needsKey i = true → s.keyValid = true) →
    s.resets = [] → s.program = .run i :: rest →
    ∃ (k : Nat) (t u : State),
      Host.Core.run core k s = .next t ∧
      exec i { s with done := false, busy := true, inflight := some { cmd := i, key := s.key, din := s.din } } = .next u ∧
      t.program = rest ∧ Idle t ∧ t.done = true ∧ t.resets = [] ∧
      t.key = s.key ∧ t.din = s.din ∧ t.dout = u.dout ∧ t.sk = u.sk ∧ t.keyValid = u.keyValid ∧ t.err = u.err ∧
      t.hostVars = s.hostVars.set 7 (hostRead .status t)

/-- A write dropped while CLRERR is in flight records ERR_BUSY, and the completion of that CLRERR clears it: the error is
lost (70_reset_and_hazards.md section 3, the second hazard under false DONE). -/
def Obligations.ErrBusyUnderClrerrIsLost : Prop :=
  ∀ (s : State) (key din v : Word) (r : Slot), s.busy = true → s.err = 0 → InFlightIs .clrerr key din s →
    ∃ t u, hostWrite r v s = .next t ∧ t.err = 4 ∧ exec .clrerr t = .next u ∧ u.err = 0 ∧ u.done = true

/-- Host computation and control statements act only on the host's variables and program, and an `ASSERT` that is false
stops the program (30_encoding.md section 3; log entries 12, 14 and 15). -/
def Obligations.HostComputationTouchesNoRegister : Prop :=
  (∀ (st : HostStmt) (s t : State),
    (st = .skip ∨ (∃ a b, st = .seq a b) ∨ (∃ n e, st = .assign n e) ∨ (∃ c, st = .assert c) ∨
      (∃ x a b body, st = .forLoop x a b body) ∨ (∃ body c, st = .loopUntil body c) ∨
      (∃ body c, st = .untilCheck body c)) →
    runStmt st s = .next t → t = { s with hostVars := t.hostVars, program := t.program }) ∧
  ∀ (c : Cond) (s : State), c.wellFormed = true →
    (c.eval s.hostVars = false → runStmt (.assert c) s = .fault .assertFailed) ∧
    (c.eval s.hostVars = true → runStmt (.assert c) s = .next s)

/-! ### The host driver -/

/-- R265: what `pad` appends, and the length it makes. -/
def Obligations.PadFillsToTheNextBlock : Prop :=
  ∀ b : Bits,
    (∃ n, pad b = b ++ [false] ++ List.replicate n true) ∧
    (pad b).length % 64 = 0 ∧ b.length < (pad b).length ∧ (pad b).length ≤ b.length + 64

/-- R266: `unpad` truncates at the last 0, and faults where there is none. -/
def Obligations.UnpadTruncatesAtTheLastZero : Prop :=
  ∀ b : Bits,
    ((∀ x ∈ b, x = true) → unpad b = .error .noPadMarker) ∧
    ∀ j, j < b.length → b.getD j true = false → (∀ k, j < k → b.getD k true = true) → unpad b = .ok (b.take j)

/-- R267: `unpad(pad(b)) = b` for every finite bit sequence. -/
def Obligations.UnpadInvertsPad : Prop := ∀ b : Bits, unpad (pad b) = .ok b

/-- Text to bits and back gives the text (45_host_driver.md section 1; UTF-8 as in log entry 18). -/
def Obligations.TextSurvivesItsBits : Prop := ∀ t : Text, bitsToText (textToBits t) = .ok t

/-- Whole groups of four bits to hex and back give the bits, and lower case reads as upper case (45_host_driver.md
section 1). -/
def Obligations.BitsSurviveTheirHex : Prop :=
  (∀ b : Bits, b.length % 4 = 0 → hexToBits (bitsToHex b) = .ok b) ∧
  ∀ n, n < 16 → hexValue (hexDigit n) = some n ∧ hexValue ((hexDigit n).toLower) = some n

/-- The driver's `encrypt` on an idle machine gives ENCB of each block of the padded message, under the key's schedule, in
block order: block j of the output depends on block j and the key only (45_host_driver.md section 3). The driver's WAIT is
modelled by its result and no reset comes during the call (log entries 19 and 26). -/
def Obligations.DriverEncryptsEachBlockAlone : Prop :=
  ∀ (m k : Text) (s : State), Idle s → (textToBits k).length = 64 →
    (encrypt m k s).1 = .ok (bitsToHex
      ((blocksOfBits ((pad (textToBits m)).length / 64) (pad (textToBits m))).flatMap fun b =>
        bits64 (encryptBlock (keySchedule (valueOfBits (textToBits k))) b)))

/-- R271: the driver's faults in their order, and no access before the key check passes. Driver calls take no reset (log
entry 26). -/
def Obligations.DriverFaultOrder : Prop :=
  ∀ (m c k : Text) (s : State), Idle s →
    ((textToBits k).length ≠ 64 →
      encrypt m k s = (.error (.fault .invalidKeyLength), s) ∧ decrypt c k s = (.error (.fault .invalidKeyLength), s)) ∧
    ((textToBits k).length = 64 →
      (∃ h, (encrypt m k s).1 = .ok h) ∧
      (∀ e, hexToBits c = .error e → decrypt c k s = (.error (.fault .decodeError), s)) ∧
      (∀ b, hexToBits c = .ok b →
        (b.length % 64 ≠ 0 → decrypt c k s = (.error (.fault .invalidWidth), s)) ∧
        (b.length % 64 = 0 → ∀ p,
          p = (blocksOfBits (b.length / 64) b).flatMap
            (fun x => bits64 (decryptBlock (keySchedule (valueOfBits (textToBits k))) x)) →
          (∀ e, unpad p = .error e → (decrypt c k s).1 = .error (.fault .noPadMarker)) ∧
          (∀ q, unpad p = .ok q →
            (∀ e, bitsToText q = .error e → (decrypt c k s).1 = .error (.fault .decodeError)) ∧
            (∀ t, bitsToText q = .ok t → (decrypt c k s).1 = .ok t)))))

/-- R273: decrypting what `encrypt` made, under the same key, gives the message back; under another key it gives a text, or
`NoPadMarker`, or `DecodeError`. Driver calls take no reset (log entry 26). -/
def Obligations.MessageRoundTrip : Prop :=
  ∀ (m k : Text) (s s' : State), Idle s → Idle s' → (textToBits k).length = 64 →
    ∃ h, (encrypt m k s).1 = .ok h ∧ (decrypt h k s').1 = .ok m ∧
      ∀ k', (textToBits k').length = 64 →
        (∃ t, (decrypt h k' s').1 = .ok t) ∨ (decrypt h k' s').1 = .error (.fault .noPadMarker) ∨
        (decrypt h k' s').1 = .error (.fault .decodeError)
end

