-- ==== Sys2Proof/Laws/Encoding.lean ====
section
/-! SUPPORT. The fields of the word `encode` makes, and what the decoder answers. -/

namespace Sys2Proof

/-- What a decoded command is: its opcode's row, with the reserved bits of its format zero. -/
theorem decode_ok {w : Word} {i : Instr} (h : decode w = .ok i) :
    lookup (opcField w) (idxField w) = some i ∧ reservedZero (formatOf i) w = true := by
  unfold decode at h
  split at h
  · cases h
  · rename_i j hj
    split at h
    · rename_i hz
      cases h
      exact ⟨hj, hz⟩
    · cases h

theorem idxField_lt (w : Word) : idxField w < 16 := (w.extractLsb' 8 4).isLt

/-- A command the opcode map yields carries exactly its OPC, and the index where its format has one. -/
theorem lookup_some {opc : BitVec 8} {idx : Nat} {i : Instr} (h : lookup opc idx = some i) :
    opcodeOf i = opc ∧ (formatOf i = .i → indexOf i = idx) ∧ (formatOf i = .z → indexOf i = 0) := by
  unfold lookup at h
  split at h <;> simp at h <;> subst h <;> simp [opcodeOf, formatOf, indexOf]

/-- Whatever the decoder accepts has a command word. -/
theorem decode_wellFormed {w : Word} {i : Instr} (h : decode w = .ok i) : i.wellFormed = true := by
  have hl := (decode_ok h).1
  have hi := idxField_lt w
  unfold lookup at hl
  split at hl <;> simp at hl <;> subst hl <;> simp [Instr.wellFormed, hi]

/-- Concatenation as a number. -/
theorem append_toNat {m n : Nat} (x : BitVec m) (y : BitVec n) : (x ++ y).toNat = x.toNat * 2 ^ n + y.toNat := by
  rw [BitVec.toNat_append, ← Nat.shiftLeft_add_eq_or_of_lt y.isLt, Nat.shiftLeft_eq]

/-- A command word as a number. -/
theorem encode_toNat (i : Instr) : (encode i).toNat = indexOf i % 16 * 256 + (opcodeOf i).toNat := by
  unfold encode
  have h := (opcodeOf i).isLt
  rw [BitVec.toNat_setWidth, append_toNat, BitVec.toNat_ofNat]
  omega

end Sys2Proof
end

