-- ==== Sys2Proof/Laws/State.lean ====
section
/-! SUPPORT. What each named update of the state does to each field, one small lemma each, so that no later proof unfolds a
record update. -/

namespace Sys2Proof.Machine

variable (s : State)

/-! ### clearDone -/

@[simp] theorem clearDone_key : (clearDone s).key = s.key := rfl
@[simp] theorem clearDone_din : (clearDone s).din = s.din := rfl
@[simp] theorem clearDone_dout : (clearDone s).dout = s.dout := rfl
@[simp] theorem clearDone_busy : (clearDone s).busy = s.busy := rfl
@[simp] theorem clearDone_done : (clearDone s).done = false := rfl
@[simp] theorem clearDone_keyValid : (clearDone s).keyValid = s.keyValid := rfl
@[simp] theorem clearDone_err : (clearDone s).err = s.err := rfl
@[simp] theorem clearDone_sk : (clearDone s).sk = s.sk := rfl
@[simp] theorem clearDone_inflight : (clearDone s).inflight = s.inflight := rfl
@[simp] theorem clearDone_hostVars : (clearDone s).hostVars = s.hostVars := rfl
@[simp] theorem clearDone_program : (clearDone s).program = s.program := rfl
@[simp] theorem clearDone_wait : (clearDone s).wait = s.wait := rfl
@[simp] theorem clearDone_latencies : (clearDone s).latencies = s.latencies := rfl
@[simp] theorem clearDone_draws : (clearDone s).draws = s.draws := rfl
@[simp] theorem clearDone_resets : (clearDone s).resets = s.resets := rfl

/-! ### clearErr -/

@[simp] theorem clearErr_key : (clearErr s).key = s.key := rfl
@[simp] theorem clearErr_din : (clearErr s).din = s.din := rfl
@[simp] theorem clearErr_dout : (clearErr s).dout = s.dout := rfl
@[simp] theorem clearErr_busy : (clearErr s).busy = s.busy := rfl
@[simp] theorem clearErr_done : (clearErr s).done = s.done := rfl
@[simp] theorem clearErr_keyValid : (clearErr s).keyValid = s.keyValid := rfl
@[simp] theorem clearErr_err : (clearErr s).err = 0 := rfl
@[simp] theorem clearErr_sk : (clearErr s).sk = s.sk := rfl
@[simp] theorem clearErr_inflight : (clearErr s).inflight = s.inflight := rfl
@[simp] theorem clearErr_hostVars : (clearErr s).hostVars = s.hostVars := rfl
@[simp] theorem clearErr_program : (clearErr s).program = s.program := rfl
@[simp] theorem clearErr_wait : (clearErr s).wait = s.wait := rfl
@[simp] theorem clearErr_latencies : (clearErr s).latencies = s.latencies := rfl
@[simp] theorem clearErr_draws : (clearErr s).draws = s.draws := rfl
@[simp] theorem clearErr_resets : (clearErr s).resets = s.resets := rfl

/-! ### setDout -/

@[simp] theorem setDout_key (v : Word) : (setDout v s).key = s.key := rfl
@[simp] theorem setDout_din (v : Word) : (setDout v s).din = s.din := rfl
@[simp] theorem setDout_dout (v : Word) : (setDout v s).dout = v := rfl
@[simp] theorem setDout_busy (v : Word) : (setDout v s).busy = s.busy := rfl
@[simp] theorem setDout_done (v : Word) : (setDout v s).done = s.done := rfl
@[simp] theorem setDout_keyValid (v : Word) : (setDout v s).keyValid = s.keyValid := rfl
@[simp] theorem setDout_err (v : Word) : (setDout v s).err = s.err := rfl
@[simp] theorem setDout_sk (v : Word) : (setDout v s).sk = s.sk := rfl
@[simp] theorem setDout_inflight (v : Word) : (setDout v s).inflight = s.inflight := rfl
@[simp] theorem setDout_hostVars (v : Word) : (setDout v s).hostVars = s.hostVars := rfl
@[simp] theorem setDout_program (v : Word) : (setDout v s).program = s.program := rfl
@[simp] theorem setDout_wait (v : Word) : (setDout v s).wait = s.wait := rfl
@[simp] theorem setDout_latencies (v : Word) : (setDout v s).latencies = s.latencies := rfl
@[simp] theorem setDout_draws (v : Word) : (setDout v s).draws = s.draws := rfl
@[simp] theorem setDout_resets (v : Word) : (setDout v s).resets = s.resets := rfl

/-! ### setHostVar -/

@[simp] theorem setHostVar_key (n : Fin 8) (v : Word) : (setHostVar n v s).key = s.key := rfl
@[simp] theorem setHostVar_din (n : Fin 8) (v : Word) : (setHostVar n v s).din = s.din := rfl
@[simp] theorem setHostVar_dout (n : Fin 8) (v : Word) : (setHostVar n v s).dout = s.dout := rfl
@[simp] theorem setHostVar_busy (n : Fin 8) (v : Word) : (setHostVar n v s).busy = s.busy := rfl
@[simp] theorem setHostVar_done (n : Fin 8) (v : Word) : (setHostVar n v s).done = s.done := rfl
@[simp] theorem setHostVar_keyValid (n : Fin 8) (v : Word) : (setHostVar n v s).keyValid = s.keyValid := rfl
@[simp] theorem setHostVar_err (n : Fin 8) (v : Word) : (setHostVar n v s).err = s.err := rfl
@[simp] theorem setHostVar_sk (n : Fin 8) (v : Word) : (setHostVar n v s).sk = s.sk := rfl
@[simp] theorem setHostVar_inflight (n : Fin 8) (v : Word) : (setHostVar n v s).inflight = s.inflight := rfl
@[simp] theorem setHostVar_hostVars (n : Fin 8) (v : Word) : (setHostVar n v s).hostVars = s.hostVars.set n v := rfl
@[simp] theorem setHostVar_program (n : Fin 8) (v : Word) : (setHostVar n v s).program = s.program := rfl
@[simp] theorem setHostVar_wait (n : Fin 8) (v : Word) : (setHostVar n v s).wait = s.wait := rfl
@[simp] theorem setHostVar_latencies (n : Fin 8) (v : Word) : (setHostVar n v s).latencies = s.latencies := rfl
@[simp] theorem setHostVar_draws (n : Fin 8) (v : Word) : (setHostVar n v s).draws = s.draws := rfl
@[simp] theorem setHostVar_resets (n : Fin 8) (v : Word) : (setHostVar n v s).resets = s.resets := rfl

/-! ### loadSchedule -/

@[simp] theorem loadSchedule_key (k : Word) : (loadSchedule k s).key = s.key := rfl
@[simp] theorem loadSchedule_din (k : Word) : (loadSchedule k s).din = s.din := rfl
@[simp] theorem loadSchedule_dout (k : Word) : (loadSchedule k s).dout = s.dout := rfl
@[simp] theorem loadSchedule_busy (k : Word) : (loadSchedule k s).busy = s.busy := rfl
@[simp] theorem loadSchedule_done (k : Word) : (loadSchedule k s).done = s.done := rfl
@[simp] theorem loadSchedule_keyValid (k : Word) : (loadSchedule k s).keyValid = true := rfl
@[simp] theorem loadSchedule_err (k : Word) : (loadSchedule k s).err = s.err := rfl
@[simp] theorem loadSchedule_sk (k : Word) : (loadSchedule k s).sk = keySchedule k := rfl
@[simp] theorem loadSchedule_inflight (k : Word) : (loadSchedule k s).inflight = s.inflight := rfl
@[simp] theorem loadSchedule_hostVars (k : Word) : (loadSchedule k s).hostVars = s.hostVars := rfl
@[simp] theorem loadSchedule_program (k : Word) : (loadSchedule k s).program = s.program := rfl
@[simp] theorem loadSchedule_wait (k : Word) : (loadSchedule k s).wait = s.wait := rfl
@[simp] theorem loadSchedule_latencies (k : Word) : (loadSchedule k s).latencies = s.latencies := rfl
@[simp] theorem loadSchedule_draws (k : Word) : (loadSchedule k s).draws = s.draws := rfl
@[simp] theorem loadSchedule_resets (k : Word) : (loadSchedule k s).resets = s.resets := rfl

/-! ### clearSchedule -/

@[simp] theorem clearSchedule_key : (clearSchedule s).key = s.key := rfl
@[simp] theorem clearSchedule_din : (clearSchedule s).din = s.din := rfl
@[simp] theorem clearSchedule_dout : (clearSchedule s).dout = s.dout := rfl
@[simp] theorem clearSchedule_busy : (clearSchedule s).busy = s.busy := rfl
@[simp] theorem clearSchedule_done : (clearSchedule s).done = s.done := rfl
@[simp] theorem clearSchedule_keyValid : (clearSchedule s).keyValid = false := rfl
@[simp] theorem clearSchedule_err : (clearSchedule s).err = s.err := rfl
@[simp] theorem clearSchedule_sk : (clearSchedule s).sk = Vector.replicate 16 0 := rfl
@[simp] theorem clearSchedule_inflight : (clearSchedule s).inflight = s.inflight := rfl
@[simp] theorem clearSchedule_hostVars : (clearSchedule s).hostVars = s.hostVars := rfl
@[simp] theorem clearSchedule_program : (clearSchedule s).program = s.program := rfl
@[simp] theorem clearSchedule_wait : (clearSchedule s).wait = s.wait := rfl
@[simp] theorem clearSchedule_latencies : (clearSchedule s).latencies = s.latencies := rfl
@[simp] theorem clearSchedule_draws : (clearSchedule s).draws = s.draws := rfl
@[simp] theorem clearSchedule_resets : (clearSchedule s).resets = s.resets := rfl

/-! ### accept -/

@[simp] theorem accept_key (i : Instr) : (accept i s).key = s.key := rfl
@[simp] theorem accept_din (i : Instr) : (accept i s).din = s.din := rfl
@[simp] theorem accept_dout (i : Instr) : (accept i s).dout = s.dout := rfl
@[simp] theorem accept_busy (i : Instr) : (accept i s).busy = true := rfl
@[simp] theorem accept_done (i : Instr) : (accept i s).done = s.done := rfl
@[simp] theorem accept_keyValid (i : Instr) : (accept i s).keyValid = s.keyValid := rfl
@[simp] theorem accept_err (i : Instr) : (accept i s).err = s.err := rfl
@[simp] theorem accept_sk (i : Instr) : (accept i s).sk = s.sk := rfl
@[simp] theorem accept_inflight (i : Instr) : (accept i s).inflight = some { cmd := i, key := s.key, din := s.din } := rfl
@[simp] theorem accept_hostVars (i : Instr) : (accept i s).hostVars = s.hostVars := rfl
@[simp] theorem accept_program (i : Instr) : (accept i s).program = s.program := rfl
@[simp] theorem accept_wait (i : Instr) : (accept i s).wait = nextLatency s := rfl
@[simp] theorem accept_latencies (i : Instr) : (accept i s).latencies = s.latencies.tail := rfl
@[simp] theorem accept_draws (i : Instr) : (accept i s).draws = s.draws + 1 := rfl
@[simp] theorem accept_resets (i : Instr) : (accept i s).resets = s.resets := rfl

/-! ### complete -/

@[simp] theorem complete_key : (complete s).key = s.key := rfl
@[simp] theorem complete_din : (complete s).din = s.din := rfl
@[simp] theorem complete_dout : (complete s).dout = s.dout := rfl
@[simp] theorem complete_busy : (complete s).busy = false := rfl
@[simp] theorem complete_done : (complete s).done = true := rfl
@[simp] theorem complete_keyValid : (complete s).keyValid = s.keyValid := rfl
@[simp] theorem complete_err : (complete s).err = s.err := rfl
@[simp] theorem complete_sk : (complete s).sk = s.sk := rfl
@[simp] theorem complete_inflight : (complete s).inflight = none := rfl
@[simp] theorem complete_hostVars : (complete s).hostVars = s.hostVars := rfl
@[simp] theorem complete_program : (complete s).program = s.program := rfl
@[simp] theorem complete_wait : (complete s).wait = 0 := rfl
@[simp] theorem complete_latencies : (complete s).latencies = s.latencies := rfl
@[simp] theorem complete_draws : (complete s).draws = s.draws := rfl
@[simp] theorem complete_resets : (complete s).resets = s.resets := rfl

/-! ### deviceReset -/

@[simp] theorem deviceReset_key : (deviceReset s).key = 0 := rfl
@[simp] theorem deviceReset_din : (deviceReset s).din = 0 := rfl
@[simp] theorem deviceReset_dout : (deviceReset s).dout = 0 := rfl
@[simp] theorem deviceReset_busy : (deviceReset s).busy = false := rfl
@[simp] theorem deviceReset_done : (deviceReset s).done = false := rfl
@[simp] theorem deviceReset_keyValid : (deviceReset s).keyValid = false := rfl
@[simp] theorem deviceReset_err : (deviceReset s).err = 0 := rfl
@[simp] theorem deviceReset_sk : (deviceReset s).sk = Vector.replicate 16 0 := rfl
@[simp] theorem deviceReset_inflight : (deviceReset s).inflight = none := rfl
@[simp] theorem deviceReset_hostVars : (deviceReset s).hostVars = s.hostVars := rfl
@[simp] theorem deviceReset_program : (deviceReset s).program = s.program := rfl
@[simp] theorem deviceReset_wait : (deviceReset s).wait = 0 := rfl
@[simp] theorem deviceReset_latencies : (deviceReset s).latencies = s.latencies := rfl
@[simp] theorem deviceReset_draws : (deviceReset s).draws = s.draws := rfl
@[simp] theorem deviceReset_resets : (deviceReset s).resets = s.resets := rfl

/-! ### placeCommand -/

@[simp] theorem placeCommand_key (w : Word) : (placeCommand w s).key = s.key := rfl
@[simp] theorem placeCommand_din (w : Word) : (placeCommand w s).din = s.din := rfl
@[simp] theorem placeCommand_dout (w : Word) : (placeCommand w s).dout = s.dout := rfl
@[simp] theorem placeCommand_busy (w : Word) : (placeCommand w s).busy = false := rfl
@[simp] theorem placeCommand_done (w : Word) : (placeCommand w s).done = s.done := rfl
@[simp] theorem placeCommand_keyValid (w : Word) : (placeCommand w s).keyValid = s.keyValid := rfl
@[simp] theorem placeCommand_err (w : Word) : (placeCommand w s).err = s.err := rfl
@[simp] theorem placeCommand_sk (w : Word) : (placeCommand w s).sk = s.sk := rfl
@[simp] theorem placeCommand_inflight (w : Word) : (placeCommand w s).inflight = none := rfl
@[simp] theorem placeCommand_hostVars (w : Word) : (placeCommand w s).hostVars = s.hostVars := rfl
@[simp] theorem placeCommand_program (w : Word) : (placeCommand w s).program = .wr .cmd (.lit w) :: s.program := rfl
@[simp] theorem placeCommand_wait (w : Word) : (placeCommand w s).wait = 0 := rfl
@[simp] theorem placeCommand_latencies (w : Word) : (placeCommand w s).latencies = s.latencies := rfl
@[simp] theorem placeCommand_draws (w : Word) : (placeCommand w s).draws = s.draws := rfl

/-! ### record -/

@[simp] theorem record_key (c : ErrCode) : (record c s).key = s.key := rfl
@[simp] theorem record_din (c : ErrCode) : (record c s).din = s.din := rfl
@[simp] theorem record_dout (c : ErrCode) : (record c s).dout = s.dout := rfl
@[simp] theorem record_busy (c : ErrCode) : (record c s).busy = s.busy := rfl
@[simp] theorem record_done (c : ErrCode) : (record c s).done = s.done := rfl
@[simp] theorem record_keyValid (c : ErrCode) : (record c s).keyValid = s.keyValid := rfl
@[simp] theorem record_err (c : ErrCode) : (record c s).err = if s.err = 0 then c.code else s.err := rfl
@[simp] theorem record_sk (c : ErrCode) : (record c s).sk = s.sk := rfl
@[simp] theorem record_inflight (c : ErrCode) : (record c s).inflight = s.inflight := rfl
@[simp] theorem record_hostVars (c : ErrCode) : (record c s).hostVars = s.hostVars := rfl
@[simp] theorem record_program (c : ErrCode) : (record c s).program = s.program := rfl
@[simp] theorem record_wait (c : ErrCode) : (record c s).wait = s.wait := rfl
@[simp] theorem record_latencies (c : ErrCode) : (record c s).latencies = s.latencies := rfl
@[simp] theorem record_draws (c : ErrCode) : (record c s).draws = s.draws := rfl
@[simp] theorem record_resets (c : ErrCode) : (record c s).resets = s.resets := rfl

/-! ### drop -/

@[simp] theorem drop_key : (drop s).key = s.key := rfl
@[simp] theorem drop_din : (drop s).din = s.din := rfl
@[simp] theorem drop_dout : (drop s).dout = s.dout := rfl
@[simp] theorem drop_busy : (drop s).busy = s.busy := rfl
@[simp] theorem drop_done : (drop s).done = s.done := rfl
@[simp] theorem drop_keyValid : (drop s).keyValid = s.keyValid := rfl
@[simp] theorem drop_err : (drop s).err = if s.err = 0 then 4 else s.err := rfl
@[simp] theorem drop_sk : (drop s).sk = s.sk := rfl
@[simp] theorem drop_inflight : (drop s).inflight = s.inflight := rfl
@[simp] theorem drop_hostVars : (drop s).hostVars = s.hostVars := rfl
@[simp] theorem drop_program : (drop s).program = s.program := rfl
@[simp] theorem drop_wait : (drop s).wait = s.wait := rfl
@[simp] theorem drop_latencies : (drop s).latencies = s.latencies := rfl
@[simp] theorem drop_draws : (drop s).draws = s.draws := rfl
@[simp] theorem drop_resets : (drop s).resets = s.resets := rfl

/-! ### reject -/

@[simp] theorem reject_key (c : ErrCode) : (reject c s).key = s.key := rfl
@[simp] theorem reject_din (c : ErrCode) : (reject c s).din = s.din := rfl
@[simp] theorem reject_dout (c : ErrCode) : (reject c s).dout = s.dout := rfl
@[simp] theorem reject_busy (c : ErrCode) : (reject c s).busy = s.busy := rfl
@[simp] theorem reject_done (c : ErrCode) : (reject c s).done = false := rfl
@[simp] theorem reject_keyValid (c : ErrCode) : (reject c s).keyValid = s.keyValid := rfl
@[simp] theorem reject_err (c : ErrCode) : (reject c s).err = if s.err = 0 then c.code else s.err := rfl
@[simp] theorem reject_sk (c : ErrCode) : (reject c s).sk = s.sk := rfl
@[simp] theorem reject_inflight (c : ErrCode) : (reject c s).inflight = s.inflight := rfl
@[simp] theorem reject_hostVars (c : ErrCode) : (reject c s).hostVars = s.hostVars := rfl
@[simp] theorem reject_program (c : ErrCode) : (reject c s).program = s.program := rfl
@[simp] theorem reject_wait (c : ErrCode) : (reject c s).wait = s.wait := rfl
@[simp] theorem reject_latencies (c : ErrCode) : (reject c s).latencies = s.latencies := rfl
@[simp] theorem reject_draws (c : ErrCode) : (reject c s).draws = s.draws := rfl
@[simp] theorem reject_resets (c : ErrCode) : (reject c s).resets = s.resets := rfl

end Sys2Proof.Machine
end

