-- ==== Sys2Proof/Laws/Ops.lean ====
section
/-! SUPPORT. Everything the shared operations can do, said once each: `command`, `issue`, `withIndex`, `hostWrite`,
`runStmt`. -/

namespace Sys2Proof.Machine

theorem command_in_flight {i : Instr} {body : InFlight → State → State} {s : State} {f : InFlight}
    (h : s.inflight = some f) (hf : f.cmd = i) : command i body s = .next (complete (body f s)) := by
  simp [command, h, hf]

theorem command_at_write {i : Instr} {body : InFlight → State → State} {s : State}
    (h : ∀ f, s.inflight = some f → f.cmd ≠ i) : command i body s = .next (issue i s) := by
  unfold command
  split
  · rename_i f hf
    simp [h f hf]
  · rfl

/-- The two phases of a command. -/
theorem command_cases {i : Instr} {body : InFlight → State → State} {s t : State} (h : command i body s = .next t) :
    (∃ f, s.inflight = some f ∧ f.cmd = i ∧ t = complete (body f s)) ∨
    ((∀ f, s.inflight = some f → f.cmd ≠ i) ∧ t = issue i s) := by
  by_cases hc : ∀ f, s.inflight = some f → f.cmd ≠ i
  · rw [command_at_write hc] at h
    exact .inr ⟨hc, (Host.Outcome.next.inj h).symm⟩
  · push Not at hc
    obtain ⟨f, hf, hi⟩ := hc
    rw [command_in_flight hf hi] at h
    exact .inl ⟨f, hf, hi, (Host.Outcome.next.inj h).symm⟩

theorem issue_busy {i : Instr} {s : State} (h : s.busy = true) : issue i s = drop s := by simp [issue, h]

theorem issue_noKey {i : Instr} {s : State} (h : s.busy = false) (hk : needsKey i = true) (hv : s.keyValid = false) :
    issue i s = reject .noKey s := by simp [issue, h, hk, hv]

theorem issue_accept {i : Instr} {s : State} (h : s.busy = false) (hk : needsKey i = true → s.keyValid = true) :
    issue i s = accept i (clearDone s) := by
  cases hn : needsKey i <;> simp_all [issue]

/-- A CMD write of a command is dropped, rejected for want of a key, or accepted (R240). -/
theorem issue_cases (i : Instr) (s : State) :
    (s.busy = true ∧ issue i s = drop s) ∨
    (s.busy = false ∧ needsKey i = true ∧ s.keyValid = false ∧ issue i s = reject .noKey s) ∨
    (s.busy = false ∧ (needsKey i = true → s.keyValid = true) ∧ issue i s = accept i (clearDone s)) := by
  cases hb : s.busy
  · by_cases hk : needsKey i = true ∧ s.keyValid = false
    · exact .inr (.inl ⟨rfl, hk.1, hk.2, issue_noKey hb hk.1 hk.2⟩)
    · have hk' : needsKey i = true → s.keyValid = true := by
        intro h
        cases hv : s.keyValid
        · exact absurd ⟨h, hv⟩ hk
        · rfl
      exact .inr (.inr ⟨rfl, hk', issue_accept hb hk'⟩)
  · exact .inl ⟨rfl, issue_busy hb⟩

theorem withIndex_lt {idx : Nat} {k : Fin 16 → Result} (h : idx < 16) : withIndex idx k = k ⟨idx, h⟩ := by
  simp [withIndex, h]

theorem withIndex_ge {idx : Nat} {k : Fin 16 → Result} (h : ¬ idx < 16) : withIndex idx k = .refused .assemblyError := by
  simp [withIndex, h]

end Sys2Proof.Machine
end

