-- ==== Sys2Proof/Laws/Exec.lean ====
section
/-! SUPPORT. All meanings in one form: a well-formed command is `command` with its completion effect, so that a claim about
every command splits on the command once, over `effect` alone. -/

namespace Sys2Proof.Machine

/-- The completion effect of each command (R246). -/
def effect : Instr → InFlight → State → State
  | .nop, _, s => s
  | .keyload, f, s => loadSchedule f.key s
  | .keyclr, _, s => clearSchedule s
  | .clrerr, _, s => clearErr s
  | .enc, f, s => setDout (encryptBlock s.sk f.din) s
  | .dec, f, s => setDout (decryptBlock s.sk f.din) s
  | .permIp, f, s => setDout (permIp f.din) s
  | .permFp, f, s => setDout (permFp f.din) s
  | .permE, f, s => setDout (zext64 (permE (lowBits 32 f.din))) s
  | .permP, f, s => setDout (zext64 (permP (lowBits 32 f.din))) s
  | .permPc1, f, s => setDout (zext64 (permPc1 f.din)) s
  | .permPc2, f, s => setDout (zext64 (permPc2 (lowBits 56 f.din))) s
  | .sbox, f, s => setDout (zext64 (substitute (lowBits 48 f.din))) s
  | .ksrot idx, f, s => setDout (zext64 (rotateHalves (lowBits 56 f.din) (Fin.ofNat 16 idx))) s
  | .ffunc idx, f, s => setDout (zext64 (feistel (lowBits 32 f.din) s.sk[Fin.ofNat 16 idx])) s
  | .round idx, f, s => setDout (roundBlock f.din s.sk[Fin.ofNat 16 idx]) s
  | .skread idx, _, s => setDout (zext64 s.sk[Fin.ofNat 16 idx]) s

theorem finOfNat_eq {idx : Nat} (h : idx < 16) : (Fin.ofNat 16 idx) = ⟨idx, h⟩ := by
  ext; simp [Nat.mod_eq_of_lt h]

/-- Every command that has a word is `command` with its effect. -/
theorem exec_wellFormed {i : Instr} (h : i.wellFormed = true) (s : State) : exec i s = command i (effect i) s := by
  cases i with
  | ksrot idx | ffunc idx | round idx | skread idx =>
    simp only [Instr.wellFormed, decide_eq_true_eq] at h
    simp only [exec, execKsrot, execFfunc, execRound, execSkread, withIndex_lt h, ← finOfNat_eq h]
    rfl
  | _ => rfl

/-- A command that has no word is refused (R101). -/
theorem exec_illFormed {i : Instr} (h : i.wellFormed = false) (s : State) : exec i s = .refused .assemblyError := by
  cases i with
  | ksrot idx | ffunc idx | round idx | skread idx =>
    simp only [Instr.wellFormed, decide_eq_false_iff_not] at h
    simp only [exec, execKsrot, execFfunc, execRound, execSkread, withIndex_ge h]
  | _ => simp [Instr.wellFormed] at h

theorem exec_in_flight {s : State} {f : InFlight} (h : s.inflight = some f) (hw : f.cmd.wellFormed = true) :
    exec f.cmd s = .next (complete (effect f.cmd f s)) := by
  rw [exec_wellFormed hw, command_in_flight h rfl]

theorem exec_at_write {i : Instr} {s : State} (hw : i.wellFormed = true) (h : s.inflight = none) :
    exec i s = .next (issue i s) := by
  rw [exec_wellFormed hw, command_at_write (by simp [h])]

/-- What a command can do: complete, be issued, or be refused for an index that has no word. -/
theorem exec_cases {i : Instr} {s t : State} (h : exec i s = .next t) :
    i.wellFormed = true ∧
    ((∃ f, s.inflight = some f ∧ f.cmd = i ∧ t = complete (effect i f s)) ∨
     ((∀ f, s.inflight = some f → f.cmd ≠ i) ∧ t = issue i s)) := by
  cases hw : i.wellFormed
  · simp [exec_illFormed hw] at h
  · rw [exec_wellFormed hw] at h
    exact ⟨rfl, command_cases h⟩

section effect
variable (i : Instr) (f : InFlight) (s : State)

@[simp] theorem effect_key : (effect i f s).key = s.key := by cases i <;> rfl
@[simp] theorem effect_din : (effect i f s).din = s.din := by cases i <;> rfl
@[simp] theorem effect_busy : (effect i f s).busy = s.busy := by cases i <;> rfl
@[simp] theorem effect_done : (effect i f s).done = s.done := by cases i <;> rfl
@[simp] theorem effect_inflight : (effect i f s).inflight = s.inflight := by cases i <;> rfl
@[simp] theorem effect_hostVars : (effect i f s).hostVars = s.hostVars := by cases i <;> rfl
@[simp] theorem effect_program : (effect i f s).program = s.program := by cases i <;> rfl
@[simp] theorem effect_wait : (effect i f s).wait = s.wait := by cases i <;> rfl
@[simp] theorem effect_latencies : (effect i f s).latencies = s.latencies := by cases i <;> rfl
@[simp] theorem effect_draws : (effect i f s).draws = s.draws := by cases i <;> rfl
@[simp] theorem effect_resets : (effect i f s).resets = s.resets := by cases i <;> rfl

theorem effect_err : (effect i f s).err = if i = .clrerr then 0 else s.err := by cases i <;> simp [effect]

theorem effect_keyValid :
    (effect i f s).keyValid = if i = .keyload then true else if i = .keyclr then false else s.keyValid := by
  cases i <;> simp [effect]

theorem effect_sk :
    (effect i f s).sk =
      if i = .keyload then keySchedule f.key else if i = .keyclr then Vector.replicate 16 0 else s.sk := by
  cases i <;> simp [effect]

theorem effect_dout (h : producesResult i = false) : (effect i f s).dout = s.dout := by
  cases i <;> first | rfl | simp [producesResult] at h

end effect

end Sys2Proof.Machine
end

