-- ==== Sys2Proof/Laws/Driver.lean ====
section
/-! SUPPORT. What the driver's accesses do, said once: the fields of STATUS, a run of a command to its completion, and the
pieces of the padding and of UTF-8. -/

namespace Sys2Proof.Machine

/-! ### STATUS read by the host (R36) -/

theorem statusWord_eq (s : State) :
    statusWord s =
      BitVec.ofNat 64 (s.busy.toNat + 2 * s.done.toNat + 4 * s.keyValid.toNat + 16 * s.err.toNat) := by
  apply BitVec.eq_of_toNat_eq
  have h := s.err.isLt
  unfold statusWord
  simp only [BitVec.toNat_setWidth, append_toNat, BitVec.toNat_ofNat]
  cases s.busy <;> cases s.done <;> cases s.keyValid <;> simp <;> omega

theorem statusWord_busy (s : State) : (statusWord s).getLsbD 0 = s.busy := by
  simp only [statusWord, BitVec.getLsbD_setWidth, BitVec.getLsbD_append]
  cases s.busy <;> simp

theorem statusWord_done (s : State) : (statusWord s).getLsbD 1 = s.done := by
  simp only [statusWord, BitVec.getLsbD_setWidth, BitVec.getLsbD_append]
  cases s.done <;> simp

theorem statusWord_keyValid (s : State) : (statusWord s).getLsbD 2 = s.keyValid := by
  simp only [statusWord, BitVec.getLsbD_setWidth, BitVec.getLsbD_append]
  cases s.keyValid <;> simp

/-! ### A command run by the driver (R106) -/

/-- What the machine is once the driver has run a command accepted by an idle machine: completed, and STATUS in h7 (R241,
R245, R105). -/
def afterRun (i : Instr) (s : State) : State :=
  lastPoll (complete (effect i { cmd := i, key := s.key, din := s.din } (accept i (clearDone s))))

theorem driverTurn_idle {s : State} (h : s.inflight = none) : driverTurn s = .next s := by
  simp [driverTurn, h]

/-- A write the driver makes to an idle machine has no wait before it. -/
theorem driverWrite_idle {s t : State} {r : Slot} {v : Word} (h : s.inflight = none) (hw : hostWrite r v s = .next t) :
    driverWrite r v s = (.ok (), t) := by
  simp [driverWrite, driverTurn_idle h, hw]

/-- The driver's `RUN` of a command that an idle machine accepts gives `afterRun` (R106). -/
theorem driverRun_accepted {i : Instr} {s : State} (hw : i.wellFormed = true) (hi : s.busy = false)
    (hn : s.inflight = none) (hk : needsKey i = true → s.keyValid = true) (hd : decode (encode i) = .ok i) :
    driverRun i s = (.ok (), afterRun i s) := by
  have h1 : hostWrite .cmd (encode i) s = .next (accept i (clearDone s)) := by
    simp [hostWrite, hi, cmdWrite, hd]
    rw [exec_at_write hw hn, issue_accept hi hk]
  have h2 : driverWait (accept i (clearDone s)) = (.ok (), afterRun i s) := by
    have h := exec_in_flight (s := accept i (clearDone s)) (f := { cmd := i, key := s.key, din := s.din }) rfl hw
    have h' : engineStep (accept i (clearDone s)) = some (exec i (accept i (clearDone s))) := rfl
    simp only [driverWait, h', h, afterRun]
  have h3 : (afterRun i s).hostVars[7].getLsbD 1 = true := by
    simp only [afterRun, lastPoll, setHostVar, hostRead]
    simp [statusWord_done, complete]
  simp only [driverRun, driverWrite_idle hn h1, h2, h3, if_true]

/-- The driver's `SETKEY` on an idle machine leaves the schedule of its key (R107). -/
theorem driverSetKey_schedule {s : State} (h : Idle s) (k : Word) :
    ∃ t, driverSetKey k s = (.ok (), t) ∧ Idle t ∧ t.key = k ∧ t.keyValid = true ∧ t.sk = keySchedule k := by
  have h1 : driverWrite .key k s = (.ok (), { s with key := k, keyValid := false }) :=
    driverWrite_idle h.2 (by simp [hostWrite, h.1])
  refine ⟨afterRun .keyload { s with key := k, keyValid := false }, ?_, ⟨rfl, rfl⟩, rfl, rfl, rfl⟩
  rw [driverSetKey, h1]
  exact driverRun_accepted rfl h.1 h.2 (by simp [needsKey]) (by decide)

/-- Keeping a key already held leaves the same schedule as loading it again (R275). -/
theorem driverKeepKey_schedule {s : State} (hi : StateInvariant s) (h : Idle s) (k : Word) :
    ∃ t, driverKeepKey k s = (.ok (), t) ∧ Idle t ∧ t.key = k ∧ t.keyValid = true ∧ t.sk = keySchedule k := by
  unfold driverKeepKey
  split
  · rename_i hc
    simp only [hostRead, statusWord_keyValid, Bool.and_eq_true, beq_iff_eq] at hc
    exact ⟨s, rfl, h, hc.2, hc.1, by rw [hi.schedule hc.1, hc.2]⟩
  · exact driverSetKey_schedule h k

end Sys2Proof.Machine
end

