-- ==== Sys2Proof/Laws/PerInstr.lean ====
section
/-! SUPPORT. Facts about every command as syntax, one lemma per constructor. The family `FieldsOfWord` says that the three
fields of a command's word (spec 30_encoding.md R90) read back the command's opcode, its index and zero reserved bits. -/

namespace Sys2Proof.Laws.FieldsOfWord

/-- The OPC, IDX and reserved fields of the word of a well-formed command. -/
def Statement (i : Instr) : Prop :=
  i.wellFormed = true →
    opcField (encode i) = opcodeOf i ∧ idxField (encode i) = indexOf i ∧ reservedZero (formatOf i) (encode i) = true

theorem nop : Statement .nop := fun _ => ⟨rfl, rfl, rfl⟩
theorem keyload : Statement .keyload := fun _ => ⟨rfl, rfl, rfl⟩
theorem keyclr : Statement .keyclr := fun _ => ⟨rfl, rfl, rfl⟩
theorem clrerr : Statement .clrerr := fun _ => ⟨rfl, rfl, rfl⟩
theorem enc : Statement .enc := fun _ => ⟨rfl, rfl, rfl⟩
theorem dec : Statement .dec := fun _ => ⟨rfl, rfl, rfl⟩
theorem permIp : Statement .permIp := fun _ => ⟨rfl, rfl, rfl⟩
theorem permFp : Statement .permFp := fun _ => ⟨rfl, rfl, rfl⟩
theorem permE : Statement .permE := fun _ => ⟨rfl, rfl, rfl⟩
theorem permP : Statement .permP := fun _ => ⟨rfl, rfl, rfl⟩
theorem permPc1 : Statement .permPc1 := fun _ => ⟨rfl, rfl, rfl⟩
theorem permPc2 : Statement .permPc2 := fun _ => ⟨rfl, rfl, rfl⟩
theorem sbox : Statement .sbox := fun _ => ⟨rfl, rfl, rfl⟩

theorem ksrot (idx : Nat) : Statement (.ksrot idx) := fun h => by
  simp only [Instr.wellFormed, decide_eq_true_eq] at h
  interval_cases idx <;> exact ⟨rfl, rfl, rfl⟩

theorem ffunc (idx : Nat) : Statement (.ffunc idx) := fun h => by
  simp only [Instr.wellFormed, decide_eq_true_eq] at h
  interval_cases idx <;> exact ⟨rfl, rfl, rfl⟩

theorem round (idx : Nat) : Statement (.round idx) := fun h => by
  simp only [Instr.wellFormed, decide_eq_true_eq] at h
  interval_cases idx <;> exact ⟨rfl, rfl, rfl⟩

theorem skread (idx : Nat) : Statement (.skread idx) := fun h => by
  simp only [Instr.wellFormed, decide_eq_true_eq] at h
  interval_cases idx <;> exact ⟨rfl, rfl, rfl⟩

end Sys2Proof.Laws.FieldsOfWord
end

