-- ==== Sys2Proof/Laws/Step.lean ====
section
/-! SUPPORT. Everything one step of the machine can do, said once: `HostChange` lists the changes the host's step can make to
the DESE registers, `step_cases` says whose step it is, and `step_effect_cases` puts the two together. -/

namespace Sys2Proof.Machine

/-- The host's and the schedule's fields of a state set anew, the DESE registers as they are. -/
def reschedule (s : State) (p : List HostStmt) (h : Vector Word 8) (w : Nat) (r : List Nat) : State :=
  { s with program := p, hostVars := h, wait := w, resets := r }

section reschedule
variable (s : State) (p : List HostStmt) (h : Vector Word 8) (w : Nat) (r : List Nat)

@[simp] theorem reschedule_key : (reschedule s p h w r).key = s.key := rfl
@[simp] theorem reschedule_din : (reschedule s p h w r).din = s.din := rfl
@[simp] theorem reschedule_dout : (reschedule s p h w r).dout = s.dout := rfl
@[simp] theorem reschedule_busy : (reschedule s p h w r).busy = s.busy := rfl
@[simp] theorem reschedule_done : (reschedule s p h w r).done = s.done := rfl
@[simp] theorem reschedule_keyValid : (reschedule s p h w r).keyValid = s.keyValid := rfl
@[simp] theorem reschedule_err : (reschedule s p h w r).err = s.err := rfl
@[simp] theorem reschedule_sk : (reschedule s p h w r).sk = s.sk := rfl
@[simp] theorem reschedule_inflight : (reschedule s p h w r).inflight = s.inflight := rfl
@[simp] theorem reschedule_hostVars : (reschedule s p h w r).hostVars = h := rfl
@[simp] theorem reschedule_program : (reschedule s p h w r).program = p := rfl
@[simp] theorem reschedule_wait : (reschedule s p h w r).wait = w := rfl
@[simp] theorem reschedule_latencies : (reschedule s p h w r).latencies = s.latencies := rfl
@[simp] theorem reschedule_draws : (reschedule s p h w r).draws = s.draws := rfl
@[simp] theorem reschedule_resets : (reschedule s p h w r).resets = r := rfl

end reschedule

/-- What a step of the host can do to the DESE registers while the engine completes nothing: `u` is the state before, up to
the host's and the schedule's fields. -/
inductive HostChange (u : State) : State → Prop
  /-- Nothing: a host statement that changes no register, a read, an ignored write, or an idle machine. -/
  | stay : HostChange u u
  /-- A write while busy. -/
  | drop (hb : u.busy = true) : HostChange u (Machine.drop u)
  /-- A KEY write. -/
  | writeKey (v : Word) (hb : u.busy = false) : HostChange u { u with key := v, keyValid := false }
  /-- A DIN write. -/
  | writeDin (v : Word) (hb : u.busy = false) : HostChange u { u with din := v }
  /-- A rejected CMD write. -/
  | reject (c : ErrCode) (hb : u.busy = false) : HostChange u (Machine.reject c u)
  /-- An accepted CMD write. -/
  | accept (i : Instr) (hb : u.busy = false) (hw : i.wellFormed = true) (hk : needsKey i = true → u.keyValid = true) :
      HostChange u (Machine.accept i (clearDone u))

/-- A CMD write to an idle engine. -/
theorem exec_hostChange {i : Instr} {u t : State} (hi : u.inflight = none) (h : exec i u = .next t) : HostChange u t := by
  obtain ⟨hw, ⟨f, hf, _⟩ | ⟨_, rfl⟩⟩ := exec_cases h
  · simp [hi] at hf
  · obtain ⟨hb, e⟩ | ⟨hb, _, _, e⟩ | ⟨hb, hk, e⟩ := issue_cases i u <;> rw [e]
    · exact .drop hb
    · exact .reject .noKey hb
    · exact .accept i hb hw hk

/-- A host write of any slot. -/
theorem hostWrite_hostChange {r : Slot} {v : Word} {u t : State} (hi : u.busy = false → u.inflight = none)
    (h : hostWrite r v u = .next t) : HostChange u t := by
  unfold hostWrite at h
  split at h
  · rename_i hb
    cases h
    exact .drop hb
  · rename_i hb
    simp only [Bool.not_eq_true] at hb
    cases r <;> simp only at h
    case key => cases h; exact .writeKey v hb
    case din => cases h; exact .writeDin v hb
    case cmd =>
      unfold cmdWrite at h
      split at h
      · rename_i c _
        cases h
        exact .reject c hb
      · exact exec_hostChange (hi hb) h
    all_goals cases h; exact .stay

/-- A slot's address is decoded to that slot, for every base (R61). -/
theorem decodeAddress_slotAddress (r : Slot) : decodeAddress Config.deseBase (slotAddress Config.deseBase r) = .slot r := by
  unfold decodeAddress slotAddress
  cases r <;> simp [Slot.number] <;> rfl

/-- An admitted access answers what its slot does; any other answers no next state. -/
theorem admitAccess_next {addr width : Nat} {k : Slot → Result} {t : State} (h : admitAccess addr width k = .next t) :
    ∃ r, decodeAddress Config.deseBase addr = .slot r ∧ width = 8 ∧ k r = .next t := by
  unfold admitAccess at h
  split at h
  · cases h
  · cases h
  · rename_i r hr
    split at h
    · rename_i hw
      exact ⟨r, hr, hw, h⟩
    · cases h

/-- A host statement: one write, or a change of the host's own fields alone. -/
theorem runStmt_hostChange {st : HostStmt} {u t : State} (hi : u.busy = false → u.inflight = none)
    (h : runStmt st u = .next t) : HostChange u t ∨ ∃ p hv, t = reschedule u p hv u.wait u.resets := by
  unfold runStmt at h
  split at h
  all_goals try (cases h; exact .inr ⟨_, _, rfl⟩)
  all_goals try cases h
  · exact .inl (hostWrite_hostChange hi h)
  · obtain ⟨r, _, _, h⟩ := admitAccess_next h
    exact .inl (hostWrite_hostChange hi h)
  · obtain ⟨r, _, _, h⟩ := admitAccess_next h
    cases h
    exact .inr ⟨_, _, rfl⟩
  · split at h
    · exact .inl (hostWrite_hostChange hi h)
    · cases h
  · split at h
    · split at h <;> cases h
      exact .inr ⟨_, _, rfl⟩
    · cases h
  · split at h
    · split at h <;> cases h
      exact .inr ⟨_, _, rfl⟩
    · cases h
  · split at h
    · cases h
      exact .inr ⟨_, _, rfl⟩
    · split at h <;> cases h
      exact .inr ⟨_, _, rfl⟩
  · split at h
    · split at h <;> cases h <;> exact .inr ⟨_, _, rfl⟩
    · cases h

/-- A step of the host. -/
theorem hostStep_hostChange {u t : State} (hi : u.busy = false → u.inflight = none) (h : hostStep u = .next t) :
    (∃ p, HostChange (reschedule u p u.hostVars u.wait u.resets) t) ∨ ∃ p hv, t = reschedule u p hv u.wait u.resets := by
  unfold hostStep at h
  split at h
  · cases h
    exact .inl ⟨u.program, .stay⟩
  · rename_i st rest _
    rcases runStmt_hostChange (u := { u with program := rest }) hi h with h | ⟨p, hv, rfl⟩
    · exact .inl ⟨rest, h⟩
    · exact .inr ⟨p, hv, rfl⟩

theorem hostOrElse_of_isNext {r o : Result} (h : isNext r = true) : hostOrElse r o = r := by
  cases r <;> simp_all [hostOrElse, isNext]

theorem hostOrElse_of_not_isNext {r o : Result} (h : isNext r = false) : hostOrElse r o = o := by
  cases r <;> simp_all [hostOrElse, isNext]

theorem isNext_of_eq {r : Result} {t : State} (h : r = .next t) : isNext r = true := by rw [h]; rfl

/-- Without a due reset a step is an agent's, nearer to the next reset. -/
theorem step_agentStep {s : State} (h : resetDue s = false) :
    step s = agentStep { s with resets := tickResets s.resets } := by
  unfold step machineStep
  split
  · simp_all [resetDue]
  · simp_all [tickResets]
  · rename_i hr
    simp only [hr, tickResets]
    rw [← hr]

/-- The engine's step is the completion of the command in flight (R243, R245). -/
theorem step_engineTurn {s : State} {f : InFlight} (h : engineTurn s = true) (hf : s.inflight = some f) :
    step s = exec f.cmd { s with resets := tickResets s.resets } := by
  simp only [engineTurn, Bool.and_eq_true, Bool.or_eq_true, Bool.not_eq_true', List.isEmpty_iff, beq_iff_eq] at h
  obtain ⟨⟨hd, _⟩, hp⟩ := h
  rw [step_agentStep hd]
  unfold agentStep
  split
  · simp_all
  · simp_all
  · rename_i f' _ _ n hf' hp' hw
    simp only at hf' hp' hw
    obtain rfl : f = f' := by simpa [hf] using hf'
    refine hostOrElse_of_not_isNext ?_
    have := hp.resolve_left (by simp [hp', hw])
    simpa [hostTurnState, hw] using this
  · simp_all

/-- With a command in flight and latency left it is the host's step, and the engine's where the host has none (R70, R243). -/
theorem step_hostTurn {s : State} {f : InFlight} {n : Nat} (hd : resetDue s = false) (hf : s.inflight = some f)
    (hw : s.wait = n + 1) (hp : s.program ≠ []) :
    step s = hostOrElse (hostStep { s with wait := n, resets := tickResets s.resets })
      (exec f.cmd { s with resets := tickResets s.resets }) := by
  rw [step_agentStep hd]
  unfold agentStep
  split
  · simp_all
  · simp_all
  · rename_i f' _ _ n' hf' _ hn'
    simp only at hf' hn'
    obtain rfl : f = f' := by simpa [hf] using hf'
    obtain rfl : n = n' := by omega
    rfl
  · simp_all

/-- With no command in flight it is the host's step; where it has none, time passes to a reset still to come (R341). -/
theorem step_idle {s : State} (hd : resetDue s = false) (hf : s.inflight = none) :
    step s = if (tickResets s.resets).isEmpty then hostStep { s with resets := tickResets s.resets }
      else hostOrElse (hostStep { s with resets := tickResets s.resets }) (.next { s with resets := tickResets s.resets }) := by
  rw [step_agentStep hd]
  unfold agentStep
  split
  · simp_all
  · simp_all
  · simp_all
  · rfl

/-- Whose step it is: a reset, the engine's completion, or the host's next statement; or the host has none it can run, and
time passes to a reset still to come. -/
theorem step_cases {s t : State} (h : step s = .next t) :
    (resetDue s = true ∧ t = deviceReset { s with resets := s.resets.tail }) ∨
    (engineTurn s = true ∧ ∃ f, s.inflight = some f ∧ exec f.cmd { s with resets := tickResets s.resets } = .next t) ∨
    (resetDue s = false ∧ engineTurn s = false ∧
      ((∃ w, hostStep { s with wait := w, resets := tickResets s.resets } = .next t) ∨
        t = { s with resets := tickResets s.resets })) := by
  cases hd : resetDue s with
  | true =>
    left
    unfold step machineStep at h
    split at h
    · rename_i rest hr
      cases h
      exact ⟨rfl, by simp [hr]⟩
    · simp_all [resetDue]
    · simp_all [resetDue]
  | false =>
    right
    cases ht : engineTurn s with
    | true =>
      left
      obtain ⟨f, hf⟩ : ∃ f, s.inflight = some f := by
        simpa [Option.isSome_iff_exists] using (show s.inflight.isSome = true by simp_all [engineTurn])
      exact ⟨rfl, f, hf, by rw [← step_engineTurn ht hf, h]⟩
    | false =>
      refine .inr ⟨rfl, rfl, ?_⟩
      rw [step_agentStep hd] at h
      unfold agentStep at h
      split at h
      · simp_all [engineTurn]
      · simp_all [engineTurn]
      · rename_i f _ _ n hf hp hn
        simp only at hf hp hn
        have hx : isNext (hostStep { s with wait := n, resets := tickResets s.resets }) = true := by
          simpa [engineTurn, hd, hf, hp, hn, hostTurnState] using ht
        rw [hostOrElse_of_isNext hx] at h
        exact .inl ⟨n, h⟩
      · split at h
        · exact .inl ⟨s.wait, h⟩
        · cases hx : isNext (hostStep { s with resets := tickResets s.resets }) with
          | true =>
            rw [hostOrElse_of_isNext hx] at h
            exact .inl ⟨s.wait, h⟩
          | false =>
            rw [hostOrElse_of_not_isNext hx] at h
            exact .inr (Host.Outcome.next.inj h).symm

/-- Everything a step can do from a state that meets the invariant: a reset, the completion of the command in flight with
its effect, a change the host makes to the DESE registers, or one to its own fields alone. -/
theorem step_effect_cases {s t : State} (hi : StateInvariant s) (h : step s = .next t) :
    (resetDue s = true ∧ t = deviceReset { s with resets := s.resets.tail }) ∨
    (engineTurn s = true ∧ ∃ f, s.inflight = some f ∧ f.cmd.wellFormed = true ∧
      t = complete (effect f.cmd f { s with resets := tickResets s.resets })) ∨
    (resetDue s = false ∧ engineTurn s = false ∧
      ((∃ p w r, HostChange (reschedule s p s.hostVars w r) t) ∨ ∃ p hv w r, t = reschedule s p hv w r)) := by
  rcases step_cases h with h | ⟨ht, f, hf, he⟩ | ⟨hd, ht, ⟨w, he⟩ | rfl⟩
  · exact .inl h
  · refine .inr (.inl ⟨ht, f, hf, (hi.admitted f hf).1, ?_⟩)
    rw [exec_in_flight (s := { s with resets := tickResets s.resets }) hf (hi.admitted f hf).1] at he
    exact (Host.Outcome.next.inj he).symm
  · refine .inr (.inr ⟨hd, ht, ?_⟩)
    rcases hostStep_hostChange (fun hb => by simpa [show s.busy = false from hb] using hi.busy_iff) he with
      ⟨p, hc⟩ | ⟨p, hv, rfl⟩
    · exact .inl ⟨p, w, tickResets s.resets, hc⟩
    · exact .inr ⟨p, hv, w, tickResets s.resets, rfl⟩
  · exact .inr (.inr ⟨hd, ht, .inr ⟨s.program, s.hostVars, s.wait, tickResets s.resets, rfl⟩⟩)

/-! ### Every accepted command completes (R244) -/

/-- While a command is in flight the host's step leaves it there, and does not touch the latency left or the resets. -/
theorem hostStep_busy {u t : State} (hb : u.busy = true) (h : hostStep u = .next t) :
    t.busy = true ∧ t.inflight = u.inflight ∧ t.wait = u.wait ∧ t.resets = u.resets := by
  rcases hostStep_hostChange (fun h' => by simp [hb] at h') h with ⟨p, hc⟩ | ⟨p, hv, rfl⟩
  · cases hc <;> simp_all [drop, record, reschedule]
  · simp [reschedule, hb]

/-- Whatever the host does or cannot do, and whatever the latency, the engine's turn comes after finitely many steps, with
the same command in flight; `step_engineTurn` says what it then does. -/
theorem engineTurn_comes (n : Nat) : ∀ (s : State) (f : InFlight), s.wait = n → s.busy = true → s.inflight = some f →
    s.resets = [] → ∃ k t, Host.Core.run core k s = .next t ∧ engineTurn t = true ∧ t.inflight = some f := by
  induction n with
  | zero =>
    intro s f hw _ hf hr
    exact ⟨0, s, rfl, by simp [engineTurn, resetDue, hr, hf, hw], hf⟩
  | succ n ih =>
    intro s f hw hb hf hr
    cases ht : engineTurn s with
    | true => exact ⟨0, s, rfl, ht, hf⟩
    | false =>
      have hd : resetDue s = false := by simp [resetDue, hr]
      have hp : s.program ≠ [] := fun h => by simp [engineTurn, hd, hf, h] at ht
      have hx : isNext (hostStep { s with wait := n, resets := tickResets s.resets }) = true := by
        simp only [engineTurn, hd, hf, hostTurnState, hw, Nat.add_sub_cancel] at ht
        simp only [← hf] at ht
        simp at ht
        exact (by simpa [hf] using ht : _ ∧ _).2
      obtain ⟨u, hu⟩ : ∃ u, hostStep { s with wait := n, resets := tickResets s.resets } = .next u := by
        cases h : hostStep { s with wait := n, resets := tickResets s.resets } <;> simp_all [isNext]
      obtain ⟨hb', hf', hw', hr'⟩ := hostStep_busy (u := { s with wait := n, resets := tickResets s.resets }) hb hu
      obtain ⟨k, t, hk, he, hft⟩ := ih u f hw' hb' (hf'.trans hf) (by simp [hr', hr, tickResets])
      refine ⟨k + 1, t, ?_, he, hft⟩
      have hs : step s = .next u := by rw [step_hostTurn hd hf hw hp, hostOrElse_of_isNext hx, hu]
      simpa [Host.Core.run, show core.step s = .next u from hs] using hk

end Sys2Proof.Machine
end

