-- ==== Sys2Proof/Laws/Units.lean ====
section
/-! SUPPORT. What the units do, said once: a permutation bit by bit, a substitution nibble by nibble, a rotation of a half,
and one Feistel round undone. -/

namespace Sys2Proof.Machine

/-! ### Permutations -/

theorem foldl_shiftConcat_getLsbD (table : List Nat) {win w : Nat} (v : BitVec win) (acc : BitVec w) (i : Nat) (hi : i < w) :
    (table.foldl (fun acc t => acc.shiftConcat (desBit v t)) acc).getLsbD i =
      if h : i < table.length then desBit v (table[table.length - 1 - i]'(by omega))
      else acc.getLsbD (i - table.length) := by
  induction table generalizing acc with
  | nil => simp
  | cons t ts ih =>
    rw [List.foldl_cons, ih, BitVec.getLsbD_shiftConcat]
    by_cases h1 : i < ts.length
    · have h2 : i < ts.length + 1 := by omega
      have h3 : ts.length - i = (ts.length - 1 - i) + 1 := by omega
      simp [h1, h2, h3]
    · by_cases h2 : i = ts.length
      · subst h2; simp; omega
      · have h3 : ¬ i < ts.length + 1 := by omega
        have h4 : i - ts.length ≠ 0 := by omega
        have h5 : i - ts.length < w := by omega
        simp [h1, h3, h4, h5]; congr 1

/-- One bit of a permutation's result, in register numbering. -/
theorem perm_getLsbD (table : List Nat) {win wout : Nat} (v : BitVec win) (hl : table.length = wout) (i : Nat)
    (hi : i < wout) : (perm table wout v).getLsbD i = desBit v (table.getD (wout - 1 - i) 0) := by
  unfold perm
  rw [foldl_shiftConcat_getLsbD _ _ _ _ hi]
  have : i < table.length := by omega
  rw [dif_pos this, List.getD_eq_getElem _ _ (by omega)]
  subst hl; rfl

theorem perm_xor (table : List Nat) {win wout : Nat} (v w : BitVec win) (hl : table.length = wout) :
    perm table wout (v ^^^ w) = perm table wout v ^^^ perm table wout w := by
  apply BitVec.eq_of_getLsbD_eq
  intro i hi
  simp [perm_getLsbD _ _ hl _ hi, desBit]

/-! ### Halves -/

@[simp] theorem leftHalf_append (l r : Half) : leftHalf (l ++ r) = l :=
  BitVec.extractLsb'_append_eq_left

@[simp] theorem rightHalf_append (l r : Half) : rightHalf (l ++ r) = r :=
  BitVec.extractLsb'_append_eq_right

@[simp] theorem leftHalf_append_rightHalf (b : Word) : leftHalf b ++ rightHalf b = b := by
  apply BitVec.eq_of_getLsbD_eq
  intro i hi
  simp only [BitVec.getLsbD_append, leftHalf, rightHalf, BitVec.getLsbD_extractLsb']
  by_cases h : i < 32
  · simp [h]
  · have : i - 32 < 32 := by omega
    have h3 : 32 + (i - 32) = i := by omega
    simp [h, this, h3]

@[simp] theorem keyLeft_append (c d : KeyHalf) : keyLeft (c ++ d) = c :=
  BitVec.extractLsb'_append_eq_left

@[simp] theorem keyRight_append (c d : KeyHalf) : keyRight (c ++ d) = d :=
  BitVec.extractLsb'_append_eq_right

@[simp] theorem keyLeft_append_keyRight (cd : KeyState) : keyLeft cd ++ keyRight cd = cd := by
  apply BitVec.eq_of_getLsbD_eq
  intro i hi
  simp only [BitVec.getLsbD_append, keyLeft, keyRight, BitVec.getLsbD_extractLsb']
  by_cases h : i < 28
  · simp [h]
  · have : i - 28 < 28 := by omega
    have h3 : 28 + (i - 28) = i := by omega
    simp [h, this, h3]

/-! ### Rotations -/

/-- `rotl28` is the rotation of the library's bit vectors. -/
theorem rotl28_eq_rotateLeft (x : KeyHalf) {s : Nat} (h : s < 28) : rotl28 x s = x.rotateLeft s := by
  rw [BitVec.rotateLeft_eq_rotateLeftAux_of_lt h]; rfl

theorem shiftsTable_le (i : Fin 16) : 1 ≤ shiftsTable[i] ∧ shiftsTable[i] ≤ 2 := by
  revert i; decide

/-! ### Substitution -/

/-- One S-box entry, its row and column said with register bits (R162). -/
theorem sboxLookup_toNat (table : List Nat) (hlt : ∀ t ∈ table, t < 16) (hl : table.length = 64) (g : BitVec 6) :
    (sboxLookup table g).toNat =
      table.getD (((g.getLsbD 5).toNat * 2 + (g.getLsbD 0).toNat) * 16 + (g.extractLsb' 1 4).toNat) 0 := by
  have key : ∀ g : BitVec 6,
      (BitVec.ofBool (desBit g 1) ++ BitVec.ofBool (desBit g 6)).toNat * 16 + (g.extractLsb' 1 4).toNat =
        ((g.getLsbD 5).toNat * 2 + (g.getLsbD 0).toNat) * 16 + (g.extractLsb' 1 4).toNat := by decide
  have bound : ∀ g : BitVec 6,
      ((g.getLsbD 5).toNat * 2 + (g.getLsbD 0).toNat) * 16 + (g.extractLsb' 1 4).toNat < 64 := by decide
  simp only [sboxLookup, BitVec.toNat_ofNat]
  rw [key g, Nat.mod_eq_of_lt]
  rw [List.getD_eq_getElem _ _ (by rw [hl]; exact bound g)]
  exact hlt _ (List.getElem_mem _)

/-- One output nibble of the substitution is its own S-box's lookup of its own group (R163). -/
theorem substitute_nibble (x : Subkey) (k : Fin 8) :
    (substitute x).extractLsb' (28 - 4 * k.val) 4 =
      sboxLookup (#v[s1Table, s2Table, s3Table, s4Table, s5Table, s6Table, s7Table, s8Table])[k] (sboxGroup x k.val) := by
  unfold substitute
  fin_cases k <;>
    (apply BitVec.eq_of_getLsbD_eq; intro i hi
     simp only [BitVec.getLsbD_extractLsb', BitVec.getLsbD_append, hi, decide_true, Bool.true_and]
     interval_cases i <;> rfl)

/-! ### One round undone -/

/-- A round, the halves swapped, the same round and the halves swapped again give the halves back (R212). -/
theorem feistelRound_swap (lr : Half × Half) (k : Subkey) :
    (feistelRound (feistelRound lr k).swap k).swap = lr := by
  simp [feistelRound]

end Sys2Proof.Machine
end

