-- ==== Sys2Proof/Tests/Slice0.lean ====
section
/-! SUPPORT. The model's own tests. Expected values are the spec's: the words of 30_encoding.md section 2 and the vectors of
95_test_vectors.md (named T and V as there). After them, for every statement with hypotheses, a witness that meets them. -/

namespace Sys2Proof.Tests

-- One theorem at a time: many kernel evaluations at once need more threads than the check allows.
set_option Elab.async false

open Sys2Proof Sys2Proof.Machine

/-! ### The states the tests use -/

/-- The key of T8. -/
def testKey : Word := 0x133457799BBCDFF1

/-- An idle machine after `SETKEY`, its next two latencies supplied, DIN as given. -/
def loaded (key din : Word) : State :=
  { State.reset with key := key, din := din, done := true, keyValid := true, sk := keySchedule key, latencies := [0, 2] }

/-- The same machine with `i` in flight. -/
def flying (i : Instr) (key din : Word) : State :=
  { loaded key din with done := false, busy := true, inflight := some { cmd := i, key := key, din := din } }

/-- DOUT after the completion of `i`. -/
def doutAfter (i : Instr) (key din : Word) : Option Word :=
  match exec i (flying i key din) with
  | .next t => some t.dout
  | .fault _ | .refused _ => none

/-- STATUS after the completion of `i`. -/
def statusAfter (i : Instr) (key din : Word) : Option Word :=
  match exec i (flying i key din) with
  | .next t => some (hostRead .status t)
  | .fault _ | .refused _ => none

/-- STATUS after a host write. -/
def statusAfterWrite (r : Slot) (v : Word) (s : State) : Option Word :=
  match hostWrite r v s with
  | .next t => some (hostRead .status t)
  | .fault _ | .refused _ => none

/-- STATUS after a host step. -/
def statusAfterStep (s : State) : Option Word :=
  match step s with
  | .next t => some (hostRead .status t)
  | .fault _ | .refused _ => none

/-! ### Well-formedness: what has no word is refused -/

theorem test_wf_ksrot : Instr.wellFormed (.ksrot 16) = false := by decide
theorem test_wf_ffunc : Instr.wellFormed (.ffunc 16) = false := by decide
theorem test_wf_round : Instr.wellFormed (.round 16) = false ∧ Instr.wellFormed (.round 15) = true := by decide
theorem test_wf_skread : Instr.wellFormed (.skread 17) = false := by decide
theorem test_wf_asm : asm (.round 16) = none ∧ asm (.round 5) = some 0x0000000000000531 := by decide
theorem test_wf_refused :
    runStmt (.cmd (.skread 16)) (loaded testKey 0) = .refused .assemblyError := rfl

/-- A slice outside its operand has no width, nor has `⊕` of unequal widths. -/
theorem test_wf_expression :
    (HExpr.slice (.var 0) 64 0).width = none ∧ (HExpr.xor (.slice (.var 0) 3 0) (.var 1)).width = none ∧
      (HExpr.cat (.slice (.var 0) 31 0) (.slice (.var 0) 63 32)).width = some 64 := by decide

theorem test_wf_condition : Cond.wellFormed (.eq (.slice (.var 7) 64 64) (.lit 0)) = false := by decide

/-- `h0 ‖ h1` does not fit a host variable. -/
theorem test_wf_assign :
    runStmt (.assign 0 (.cat (.var 0) (.var 1))) (loaded testKey 0) = .refused .illFormedStatement := rfl

/-! ### Decoding: words written out bit by bit from R91 and R93 -/

theorem test_decode_control :
    decode 0b0000000000000000000000000000000000000000000000000000000000000000 = .ok .nop ∧
    decode 0b0000000000000000000000000000000000000000000000000000000000000011 = .ok .clrerr := by decide

theorem test_decode_key_schedule :
    decode 0b0000000000000000000000000000000000000000000000000000000000000001 = .ok .keyload ∧
    decode 0b0000000000000000000000000000000000000000000000000000000000000010 = .ok .keyclr ∧
    decode 0b0000000000000000000000000000000000000000000000000000101000100111 = .ok (.ksrot 10) ∧
    decode 0b0000000000000000000000000000000000000000000000000000111100110010 = .ok (.skread 15) := by decide

theorem test_decode_feistel :
    decode 0b0000000000000000000000000000000000000000000000000000000000010000 = .ok .enc ∧
    decode 0b0000000000000000000000000000000000000000000000000000000000010001 = .ok .dec ∧
    decode 0b0000000000000000000000000000000000000000000000000000001100110000 = .ok (.ffunc 3) ∧
    decode 0b0000000000000000000000000000000000000000000000000000010100110001 = .ok (.round 5) := by decide

theorem test_decode_permutation :
    decode 0b0000000000000000000000000000000000000000000000000000000000100000 = .ok .permIp ∧
    decode 0b0000000000000000000000000000000000000000000000000000000000100001 = .ok .permFp ∧
    decode 0b0000000000000000000000000000000000000000000000000000000000100010 = .ok .permE ∧
    decode 0b0000000000000000000000000000000000000000000000000000000000100011 = .ok .permP ∧
    decode 0b0000000000000000000000000000000000000000000000000000000000100100 = .ok .permPc1 ∧
    decode 0b0000000000000000000000000000000000000000000000000000000000100101 = .ok .permPc2 := by decide

theorem test_decode_substitution :
    decode 0b0000000000000000000000000000000000000000000000000000000000100110 = .ok .sbox := by decide

/-- Format Z has no index field: its bits 11:8 must be zero too (R307). -/
theorem test_decode_rejects :
    decode 0x0000000000000110 = .error .reserved ∧ decode 0x0000000000001031 = .error .reserved ∧
    decode 0xFFFFFFFFFFFFFF04 = .error .illegal ∧ decode 0x00000000000001FF = .error .illegal := by decide

/-- Of the 256 opcodes 239 are unassigned (R95). -/
theorem test_unassigned_count :
    ((List.range 256).filter fun n => lookup (BitVec.ofNat 8 n) 0 = none).length = 239 := by decide +kernel

theorem test_table_word : decodeTableWord 64 0x0F32 = some (.skread 15) ∧ decodeTableWord 64 0x1032 = none := by decide

/-! ### Each command: its result (T1 to T13, T20) -/

theorem test_permIp : doutAfter .permIp testKey 0x0123456789ABCDEF = some 0xCC00CCFFF0AAF0AA := by decide +kernel
theorem test_permIp_bit0 : doutAfter .permIp testKey 0x0000000000000001 = some 0x0000008000000000 := by decide +kernel
theorem test_permFp : doutAfter .permFp testKey 0xCC00CCFFF0AAF0AA = some 0x0123456789ABCDEF := by decide +kernel
theorem test_permFp_bit63 : doutAfter .permFp testKey 0x8000000000000000 = some 0x0000000000000040 := by decide +kernel
theorem test_permE : doutAfter .permE testKey 0x00000000F0AAF0AA = some 0x00007A15557A1555 := by decide +kernel
theorem test_permE_wraps : doutAfter .permE testKey 0xFFFFFFFF00000001 = some 0x0000800000000002 := by decide +kernel
theorem test_permP : doutAfter .permP testKey 0x000000005C82B597 = some 0x00000000234AA9BB := by decide +kernel
theorem test_permP_ignores : doutAfter .permP testKey 0xFFFFFFFF00000000 = some 0x0000000000000000 := by decide +kernel
theorem test_permPc1 : doutAfter .permPc1 testKey 0x133457799BBCDFF1 = some 0x00F0CCAAF556678F := by decide +kernel
theorem test_permPc1_parity : doutAfter .permPc1 testKey 0x0101010101010101 = some 0 := by decide +kernel
theorem test_permPc2 : doutAfter .permPc2 testKey 0x00E19955FAACCF1E = some 0x00001B02EFFC7072 := by decide +kernel
theorem test_permPc2_ignores : doutAfter .permPc2 testKey 0xFF00000000000000 = some 0 := by decide +kernel
theorem test_sbox : doutAfter .sbox testKey 0x00006117BA866527 = some 0x000000005C82B597 := by decide +kernel
theorem test_sbox_row : doutAfter .sbox testKey 0xFFFF840000000000 = some 0x00000000FFA72C4D := by decide +kernel
theorem test_ksrot : doutAfter (.ksrot 0) testKey 0x00F0CCAAF556678F = some 0x00E19955FAACCF1E := by decide +kernel
theorem test_ksrot_halves : doutAfter (.ksrot 2) testKey 0x0080000000000001 = some 0x0000000020000004 := by decide +kernel
theorem test_skread_first : doutAfter (.skread 0) testKey 0 = some 0x00001B02EFFC7072 := by decide +kernel
theorem test_skread_last : doutAfter (.skread 15) testKey 0 = some 0x0000CB3D8B0E17F5 := by decide +kernel
theorem test_ffunc : doutAfter (.ffunc 0) testKey 0xCC00CCFFF0AAF0AA = some 0x00000000234AA9BB := by decide +kernel
theorem test_ffunc_zero : doutAfter (.ffunc 7) 0 0 = some 0x00000000D8D8DBBC := by decide +kernel
theorem test_round : doutAfter (.round 0) testKey 0xCC00CCFFF0AAF0AA = some 0xF0AAF0AAEF4A6544 := by decide +kernel
theorem test_round_last : doutAfter (.round 15) testKey 0xC28C960D43423234 = some 0x434232340A4CD995 := by decide +kernel
theorem test_enc : doutAfter .enc 0x0123456789ABCDEF 0x4E6F772069732074 = some 0x3FA40E8A984D4815 := by decide +kernel
theorem test_enc_published : doutAfter .enc testKey 0x0123456789ABCDEF = some 0x85E813540F0AB405 := by decide +kernel
theorem test_dec : doutAfter .dec 0x0123456789ABCDEF 0x3FA40E8A984D4815 = some 0x4E6F772069732074 := by decide +kernel
theorem test_dec_ones : doutAfter .dec 0xFFFFFFFFFFFFFFFF 0x7359B2163E4EDC58 = some 0xFFFFFFFFFFFFFFFF := by decide +kernel

/-- KEYLOAD takes the schedule from the captured KEY (V1's SK[7]). -/
theorem test_keyload :
    (match exec .keyload { flying .keyload 0x0123456789ABCDEF 0 with keyValid := false, sk := Vector.replicate 16 0 } with
      | .next t => decide (t.sk[7] = 0x5788386CE581 ∧ hostRead .status t = 0x6)
      | .fault _ | .refused _ => false) = true := by decide +kernel

theorem test_keyclr_status : statusAfter .keyclr testKey 0 = some 0x2 := by decide +kernel
theorem test_nop_status : statusAfter .nop testKey 0 = some 0x6 := by decide +kernel

/-- CLRERR clears ERR and leaves KEY_VALID (R251). -/
theorem test_clrerr :
    (match exec .clrerr { flying .clrerr testKey 0 with err := 3 } with
      | .next t => decide (hostRead .status t = 0x6)
      | .fault _ | .refused _ => false) = true := by decide +kernel

/-! ### Writes to the window (T21 to T33) -/

theorem test_T21_noKey : statusAfterWrite .cmd 0x10 State.reset = some 0x30 := by decide +kernel
theorem test_T22_illegal : statusAfterWrite .cmd 0xFF State.reset = some 0x10 := by decide +kernel
theorem test_T24_reserved_first : statusAfterWrite .cmd 0x110 State.reset = some 0x20 := by decide +kernel
theorem test_T27_busy :
    statusAfterWrite .din 0x1111111111111111 (flying .enc testKey 0) = some 0x45 := by decide +kernel
theorem test_T28_busy_first : statusAfterWrite .cmd 0x1FF (flying .enc testKey 0) = some 0x45 := by decide +kernel
theorem test_T29_sticky : statusAfterWrite .cmd 0xFF { State.reset with err := 3 } = some 0x30 := by decide +kernel
theorem test_T32_key_write : statusAfterWrite .key testKey (loaded testKey 0) = some 0x2 := by decide +kernel
theorem test_T33_ignored :
    hostWrite .dout 5 (loaded testKey 0) = .next (loaded testKey 0) ∧
    hostWrite .status 5 (loaded testKey 0) = .next (loaded testKey 0) := ⟨rfl, rfl⟩
theorem test_T34_reads_zero : hostRead .cmd (loaded testKey 0) = 0 ∧ hostRead .rsv6 (loaded testKey 0) = 0 := by decide +kernel

/-- A window at 0x1000: the slots, a misaligned address, the first address after it (R61, R63). -/
theorem test_addresses :
    decodeAddress 0x1000 0x1018 = .slot .cmd ∧ decodeAddress 0x1000 0x1038 = .slot .rsv7 ∧
    decodeAddress 0x1000 0x101C = .misaligned ∧ decodeAddress 0x1000 0x1040 = .outside ∧
    decodeAddress 0x1000 0xFFF = .outside := by decide

/-! ### One step -/

/-- From reset the placed word is the command of the very next step: NOP is accepted (BUSY). -/
theorem test_step_nop : statusAfterStep (State.reset.withFetchWord 64 0) = some 0x1 := by decide +kernel

/-- From reset ENC is turned away for want of a key (T21). -/
theorem test_step_enc : statusAfterStep (State.reset.withFetchWord 64 0x10) = some 0x30 := by decide +kernel

/-- With a latency of 2 left the host goes on; its write is dropped (R351). -/
theorem test_step_host_first :
    statusAfterStep { flying .enc testKey 0 with wait := 2, program := [.wr .din (.lit 1)] } = some 0x45 := by decide +kernel

/-- With no latency left the engine completes first (R244). -/
theorem test_step_engine_first :
    statusAfterStep { flying .enc testKey 0 with wait := 0, program := [.wr .din (.lit 1)] } = some 0x6 := by decide +kernel

/-- A false ASSERT stops the program only: with latency left the command in flight still completes (R103, R244). -/
theorem test_step_failed_assert :
    statusAfterStep { flying .enc testKey 0 with wait := 2, program := [.assert (bitIs 7 1 1)] } = some 0x6 := by
  decide +kernel

/-- With nothing in flight and no reset to come the run ends in the failed state. -/
theorem test_step_failed_end :
    step { loaded testKey 0 with program := [.assert (bitIs 7 1 1)] } = .fault .assertFailed := rfl

/-- A due reset discards the command in flight (R341). -/
theorem test_step_reset : statusAfterStep { flying .enc testKey 0 with resets := [0] } = some 0x0 := by decide +kernel

/-- The host swap of P2: `(h0 << 32) | (h0 >> 32)`. -/
theorem test_host_swap :
    HExpr.eval #v[0x434232340A4CD995, 0, 0, 0, 0, 0, 0, 0]
      (.or (.shl (.var 0) (.lit 32)) (.shr (.var 0) (.lit 32))) = 0x0A4CD99543423234 := by decide +kernel

theorem test_assert_fails : runStmt (.assert (bitIs 7 1 1)) (loaded testKey 0) = .fault .assertFailed := rfl

/-- `SETKEY h0` writes the variable's value to KEY (R107, R100). -/
theorem test_setkey_variable : HostStmt.setkey (.var 0) = .seq (.wr .key (.var 0)) (.run .keyload) := rfl

/-- `FOR i IN 2..3` runs its body for 2 first and keeps the rest for 3 (R103). -/
theorem test_for :
    (match runStmt (.forLoop 0 2 3 (.cmdVar .round 0)) (loaded testKey 0) with
      | .next t => decide (t.program = [.cmd (.round 2), .forLoop 0 3 3 (.cmdVar .round 0)])
      | .fault _ | .refused _ => false) = true := by decide +kernel

/-! ### The driver (95_test_vectors.md section 3.6) -/

/-- "abcdefgh". -/
def keyText : Text := ['a', 'b', 'c', 'd', 'e', 'f', 'g', 'h']

theorem test_key_value : valueOfBits (textToBits keyText) = 0x6162636465666768 := by decide +kernel
theorem test_block_of_bytes : blockOfBytes #v[0x4E, 0x6F, 0x77, 0x20, 0x69, 0x73, 0x20, 0x74] = 0x4E6F772069732074 := by
  decide +kernel
theorem test_pad_hi : blocksOfBits 1 (pad (textToBits ['H', 'i'])) = [0x48697FFFFFFFFFFF] := by decide +kernel
theorem test_pad_empty : blocksOfBits 1 (pad []) = [0x7FFFFFFFFFFFFFFF] := by decide +kernel
theorem test_unpad :
    unpad [true, false, true, true] = .ok [true] ∧ unpad [] = .error .noPadMarker ∧
      unpad (List.replicate 64 true) = .error .noPadMarker := by decide +kernel

/-- "ÿ" is two bytes of UTF-8; an overlong form and a surrogate are not UTF-8 (R262). -/
theorem test_utf8 :
    utf8Encode [Char.ofNat 0xFF] = [0xC3, 0xBF] ∧ utf8Decode [0xC3, 0xBF] = some [Char.ofNat 0xFF] ∧
      utf8Decode [0xC0, 0x80] = none ∧ utf8Decode [0xED, 0xA0, 0x80] = none := by decide +kernel

theorem test_encrypt_hi :
    (match (encrypt ['H', 'i'] keyText State.reset).1 with
      | .ok t => decide (t = ['5', '0', '1', '2', '6', '1', 'F', '4', '2', '3', '2', '8', 'E', '9', 'E', '3'])
      | .error _ => false) = true := by decide +kernel

/-- After `encrypt` h0 holds the last block of P3's call and h7 the STATUS read last (R269, R105). -/
theorem test_encrypt_variables :
    (encrypt [] keyText State.reset).2.hostVars[0] = 0x2BDB4E3B4FDAEC94 ∧
      (encrypt [] keyText State.reset).2.hostVars[7] = 0x6 := by decide +kernel

/-- A call made while ENC is in flight: its KEY write is dropped with latency left, and admitted with none (R351). -/
theorem test_driver_in_flight :
    (driverWrite .key 5 { flying .enc testKey 0 with wait := 1 }).2.key = testKey ∧
      (driverWrite .key 5 { flying .enc testKey 0 with wait := 0 }).2.key = 5 := by decide +kernel

theorem test_decrypt_empty :
    (match (decrypt [] keyText State.reset).1 with
      | .error (.fault .noPadMarker) => true
      | .ok _ | .error _ => false) = true := by decide +kernel

theorem test_decrypt_key_first :
    (match (decrypt ['z', 'z'] ['s', 'h', 'o', 'r', 't'] State.reset).1 with
      | .error (.fault .invalidKeyLength) => true
      | .ok _ | .error _ => false) = true := by decide +kernel

/-! ### Witnesses: states and operands that meet the hypotheses of each statement -/

theorem loaded_invariant (key din : Word) : StateInvariant (loaded key din) where
  busy_iff := rfl
  captured := by intro f h; simp [loaded, State.reset] at h
  admitted := by intro f h; simp [loaded, State.reset] at h
  schedule := fun _ => rfl
  err_range := by simp [loaded, State.reset]
  not_done := by intro h; simp [loaded, State.reset] at h

theorem flying_invariant {i : Instr} (hw : i.wellFormed = true) (key din : Word) : StateInvariant (flying i key din) where
  busy_iff := rfl
  captured := by intro f h; cases h; exact ⟨rfl, rfl⟩
  admitted := by intro f h; cases h; exact ⟨hw, fun _ => rfl⟩
  schedule := fun _ => rfl
  err_range := by simp [flying, loaded, State.reset]
  not_done := fun _ => rfl

theorem witness_DecodeOfEncodeIsTheCommand :
    Instr.wellFormed .enc = true ∧ Instr.wellFormed (.round 0) = true ∧ Instr.wellFormed (.round 15) = true := by decide

theorem witness_EncodeOfDecodeIsTheWord : ∃ w i, decode w = .ok i := ⟨0x0F31, .round 15, by decide⟩

theorem witness_UnassignedOpcodeIsIllegal :
    ∃ (w v : Word) (s : State), s.busy = false ∧ decode w = .error .illegal ∧ decode v = .error .illegal :=
  ⟨0x04, 0xFF, State.reset, by decide⟩

theorem witness_ReservedBitsAreRejected :
    ∃ (w v : Word) (s : State), s.busy = false ∧ decode w = .error .reserved ∧ decode v = .error .reserved :=
  ⟨0x8000000000000000, 0x1031, State.reset, by decide⟩

theorem witness_IndexOutsideRangeHasNoWord : ∃ i : Instr, i.wellFormed = false := ⟨.round 16, by decide⟩

/-- One witness for each of the five cases: busy, not decoded, no key, key needed and held, no key needed. -/
theorem witness_CmdWriteProcedure :
    (flying .enc testKey 0).busy = true ∧
    (State.reset.busy = false ∧ decode 0xFF = .error .illegal) ∧
    (Idle State.reset ∧ decode 0x10 = .ok .enc ∧ needsKey .enc = true ∧ State.reset.keyValid = false) ∧
    (Idle (loaded testKey 0) ∧ decode 0x0F32 = .ok (.skread 15) ∧ needsKey (.skread 15) = true ∧
      (loaded testKey 0).keyValid = true) ∧
    (Idle State.reset ∧ decode 0 = .ok .nop ∧ needsKey .nop = false) :=
  ⟨rfl, by decide, ⟨⟨rfl, rfl⟩, by decide⟩, ⟨⟨rfl, rfl⟩, by decide, rfl, rfl⟩, ⟨rfl, rfl⟩, by decide⟩

theorem witness_WritesWhileBusyAreDropped : ∃ s : State, s.busy = true := ⟨flying .enc testKey 0, rfl⟩

/-- A state for each code: BUSY, ILLEGAL, RESERVED, NOKEY, none, and a slot other than CMD. -/
theorem witness_FirstErrorThatAppliesIsReported :
    ((flying .enc testKey 0).err = 0 ∧ (flying .enc testKey 0).busy = true) ∧
    (State.reset.err = 0 ∧ (State.reset.busy = false → State.reset.inflight = none) ∧
      lookup (opcField 0xFF) (idxField 0xFF) = none ∧ decode 0x110 = .error .reserved ∧ decode 0x10 = .ok .enc ∧
      needsKey .enc = true ∧ State.reset.keyValid = false ∧ decode 0x26 = .ok .sbox ∧ needsKey .sbox = false ∧
      Slot.din ≠ .cmd) :=
  ⟨⟨rfl, rfl⟩, rfl, fun _ => rfl, by decide⟩

theorem witness_ExecAtTheWriteAcceptsOrRejects :
    (Instr.wellFormed (.round 15) = true ∧ Idle (loaded testKey 0) ∧ (loaded testKey 0).keyValid = true) ∧
    (Instr.wellFormed .sbox = true ∧ Idle State.reset ∧ needsKey .sbox = false) ∧
    (Instr.wellFormed .dec = true ∧ Idle State.reset ∧ needsKey .dec = true ∧ State.reset.keyValid = false) :=
  ⟨⟨rfl, ⟨rfl, rfl⟩, rfl⟩, ⟨rfl, ⟨rfl, rfl⟩, rfl⟩, rfl, ⟨rfl, rfl⟩, rfl, rfl⟩

theorem witness_ControlCommandsComplete :
    InFlightIs .nop 1 2 (flying .nop 1 2) ∧ InFlightIs .clrerr 1 2 { flying .clrerr 1 2 with err := 4 } := ⟨rfl, rfl⟩
theorem witness_KeyloadFillsTheSubkeyFile : InFlightIs .keyload testKey 0 (flying .keyload testKey 0) := rfl
theorem witness_KeyclrZeroesTheSubkeyFile : InFlightIs .keyclr testKey 0 (flying .keyclr testKey 0) := rfl
theorem witness_EncAndDecWriteTheBlock :
    InFlightIs .enc testKey 5 (flying .enc testKey 5) ∧ InFlightIs .dec testKey 5 (flying .dec testKey 5) := ⟨rfl, rfl⟩
theorem witness_PermutationCommandsWriteTheirResult :
    InFlightIs .permIp 1 2 (flying .permIp 1 2) ∧ InFlightIs .permFp 1 2 (flying .permFp 1 2) ∧
    InFlightIs .permE 1 2 (flying .permE 1 2) ∧ InFlightIs .permP 1 2 (flying .permP 1 2) ∧
    InFlightIs .permPc1 1 2 (flying .permPc1 1 2) ∧ InFlightIs .permPc2 1 2 (flying .permPc2 1 2) :=
  ⟨rfl, rfl, rfl, rfl, rfl, rfl⟩
theorem witness_SboxWritesTheSubstitution : InFlightIs .sbox 1 2 (flying .sbox 1 2) := rfl
theorem witness_KsrotRotatesBothHalves :
    InFlightIs (.ksrot 0) 1 2 (flying (.ksrot 0) 1 2) ∧ InFlightIs (.ksrot 15) 1 2 (flying (.ksrot 15) 1 2) := ⟨rfl, rfl⟩
theorem witness_SkreadWritesTheSubkey :
    InFlightIs (.skread 0) 1 2 (flying (.skread 0) 1 2) ∧ InFlightIs (.skread 15) 1 2 (flying (.skread 15) 1 2) := ⟨rfl, rfl⟩
theorem witness_FfuncAndRoundWriteTheirResult :
    InFlightIs (.ffunc 15) 1 2 (flying (.ffunc 15) 1 2) ∧ InFlightIs (.round 0) 1 2 (flying (.round 0) 1 2) := ⟨rfl, rfl⟩

/-- A command in flight, and one at its write. -/
theorem witness_CommandFrame :
    (∃ t, exec .sbox (flying .sbox 1 2) = .next t) ∧ InFlightIs .sbox 1 2 (flying .sbox 1 2) ∧
    (∃ t, exec .nop State.reset = .next t) ∧ ¬ ∃ key din, InFlightIs .nop key din State.reset :=
  ⟨⟨_, rfl⟩, rfl, ⟨_, rfl⟩, fun ⟨_, _, h⟩ => by simp [InFlightIs, State.reset] at h⟩

theorem witness_PermutationCopiesTableBits : 0 < eTable.length ∧ 47 < eTable.length := by decide
theorem witness_PermutationTableInvariants :
    58 ∈ ipTable ∧ 40 ∈ fpTable ∧ 32 ∈ eTable ∧ 16 ∈ pTable ∧ 57 ∈ pc1Table ∧ 14 ∈ pc2Table ∧ ipTable.count 64 = 1 := by
  decide
theorem witness_FinalPermutationInvertsInitial : ∃ i, 1 ≤ i ∧ i ≤ 64 := ⟨64, by decide⟩

/-- Two different inputs with the same group 7. -/
theorem witness_SubstitutionLanesAreIndependent :
    ∃ x y : Subkey, x ≠ y ∧ x.extractLsb' (42 - 6 * (7 : Fin 8).val) 6 = y.extractLsb' (42 - 6 * (7 : Fin 8).val) 6 :=
  ⟨0x3F, 0xFC000000003F, by decide⟩
theorem witness_RoundRotationOfTheHalves : ∃ n, 1 ≤ n ∧ n ≤ 28 := ⟨28, by decide⟩

theorem witness_KeyScheduleProperties :
    ((0x0100000000000001 : Word) &&& 0x0101010101010101 = 0x0100000000000001) ∧
    (keyLeft (permPc1 0x1F1F1F1F0E0E0E0E) = 0 ∧ keyRight (permPc1 0x1F1F1F1F0E0E0E0E) = 0xFFFFFFF) := by decide +kernel
theorem witness_ParityBitsChangeNoBlock :
    (0x0101010101010101 : Word) &&& 0x0101010101010101 = 0x0101010101010101 := by decide

theorem witness_SlotReadsAndWrites : (loaded testKey 0).busy = false ∧ (flying .enc testKey 0).busy = true := ⟨rfl, rfl⟩

theorem witness_ReadsAndRepeatedWrites :
    (∃ (s t : State) (v : Word), s.busy = false ∧ hostWrite .din v s = .next t) ∧
    (∃ (s t : State) (v : Word), s.busy = false ∧ hostWrite .key v s = .next t) ∧
    (∃ (s t u : State) (w : Word), Idle s ∧ s.err = 0 ∧ hostWrite .cmd w s = .next t ∧ t.busy = true ∧
      hostWrite .cmd w t = .next u) ∧
    (∃ s : State, s.busy = false) :=
  ⟨⟨State.reset, _, 1, rfl, rfl⟩, ⟨State.reset, _, 1, rfl, rfl⟩,
    ⟨loaded 1 2, _, _, 0, ⟨rfl, rfl⟩, rfl, rfl, rfl, rfl⟩, State.reset, rfl⟩

/-- For every base: below and above the window, the four kinds of access in it. -/
theorem witness_OnlyAlignedWordAccessesAreAdmitted :
    (Config.deseBase + 64 ≤ Config.deseBase + 64) ∧
    (Config.deseBase ≤ Config.deseBase + 63 ∧ Config.deseBase + 63 < Config.deseBase + 64 ∧ (4 : Nat) ≠ 8) ∧
    ((Config.deseBase + 63 - Config.deseBase) % 8 ≠ 0) ∧
    (Config.deseBase ≤ Config.deseBase + 56 ∧ Config.deseBase + 56 < Config.deseBase + 64 ∧
      (Config.deseBase + 56 - Config.deseBase) % 8 = 0) := by omega

/-- With no command in flight: a statement that runs, one that is stuck with no reset to come, and one that is stuck with one.
In flight with latency left: a write, and a stuck statement. The three forms that write a command word. -/
theorem witness_StepRunsTheCommandWritten :
    (∃ t, runStmt (.rd 0 .key) { loaded testKey 0 with program := [] } = .next t) ∧
    (loaded testKey 0).inflight = none ∧ (loaded testKey 0).resets = [] ∧
    (∀ t, runStmt (.assert (bitIs 7 1 1)) { loaded testKey 0 with resets := [0] } ≠ .next t) ∧
    (tickResets [1] = [0] ∧ resetDue { loaded testKey 0 with resets := [1] } = false) ∧
    ((flying .enc testKey 0).inflight.isSome = true ∧ resetDue (flying .enc testKey 0) = false ∧
      ∃ t, runStmt (.wr .din (.lit 1)) { flying .enc testKey 0 with wait := 1 } = .next t) ∧
    (∀ t, runStmt (.assert (bitIs 7 1 1)) { flying .enc testKey 0 with wait := 1 } ≠ .next t) ∧
    (Idle (loaded testKey 0) ∧ (Src.lit 0x10).value (loaded testKey 0) = 0x10 ∧ decode 0x10 = .ok .enc) ∧
    (Src.var 0).value { loaded testKey 0 with hostVars := Vector.replicate 8 0x10 } = 0x10 :=
  ⟨⟨_, rfl⟩, rfl, rfl, fun _ h => (by cases h), ⟨rfl, rfl⟩, ⟨rfl, rfl, _, rfl⟩, fun _ h => (by cases h),
    ⟨⟨rfl, rfl⟩, rfl, by decide⟩, rfl⟩

/-- No latency left, and a host that is stuck while latency is left. -/
theorem witness_StepRunsTheCommandInFlight :
    (engineTurn (flying .enc testKey 0) = true ∧ (flying .enc testKey 0).inflight.isSome = true) ∧
    engineTurn { flying .enc testKey 0 with wait := 3, program := [.assert (bitIs 7 1 1)] } = true := ⟨⟨rfl, rfl⟩, rfl⟩

theorem witness_StepRunsThePlacedWord : ∃ nbits w i, decodeTableWord nbits w = some i := ⟨64, 0x0F31, .round 15, by decide⟩

/-- An idle host step and a completion. -/
theorem witness_EveryStepKeepsTheInvariant :
    (StateInvariant (loaded testKey 0) ∧ ∃ t, step (loaded testKey 0) = .next t) ∧
    (StateInvariant (flying .enc testKey 0) ∧ ∃ t, step (flying .enc testKey 0) = .next t) :=
  ⟨⟨loaded_invariant _ _, _, rfl⟩, flying_invariant rfl _ _, _, rfl⟩

theorem witness_ResetDiscardsTheCommandInFlight :
    ∃ s : State, resetDue s = true ∧ s.inflight.isSome = true := ⟨{ flying .enc testKey 0 with resets := [0] }, rfl, rfl⟩

/-- A recorded error cleared by a completing CLRERR. -/
theorem witness_ErrIsSticky :
    ∃ s t : State, StateInvariant s ∧ step s = .next t ∧ s.err ≠ 0 ∧ t.err ≠ s.err :=
  ⟨{ flying .clrerr testKey 0 with err := 4 }, _,
    { flying_invariant (i := .clrerr) rfl testKey 0 with err_range := by simp }, rfl, by decide, by decide⟩

theorem witness_DoutChangesOnlyAtACompletion :
    ∃ s t : State, StateInvariant s ∧ step s = .next t ∧ t.dout ≠ s.dout :=
  ⟨flying .permIp testKey 1, _, flying_invariant rfl _ _, rfl, by decide +kernel⟩

theorem witness_SubkeysChangeOnlyByKeyloadOrKeyclr :
    ∃ s t : State, StateInvariant s ∧ step s = .next t ∧ t.sk ≠ s.sk :=
  ⟨flying .keyclr testKey 0, _, flying_invariant rfl _ _, rfl, by decide +kernel⟩

/-- KEY_VALID from 0 to 1 by KEYLOAD, and from 1 to 0 by KEYCLR and by a KEY write. -/
theorem witness_KeyValidWriters :
    (∃ s t : State, StateInvariant s ∧ step s = .next t ∧ s.keyValid = false ∧ t.keyValid = true) ∧
    (∃ s t : State, StateInvariant s ∧ step s = .next t ∧ s.keyValid = true ∧ t.keyValid = false ∧ s.busy = true) ∧
    (∃ s t : State, StateInvariant s ∧ step s = .next t ∧ s.keyValid = true ∧ t.keyValid = false ∧ s.busy = false) :=
  ⟨⟨{ flying .keyload testKey 0 with keyValid := false }, _,
      { flying_invariant (i := .keyload) rfl testKey 0 with
        admitted := by intro f h; cases h; exact ⟨rfl, fun h => by simp [needsKey] at h⟩
        schedule := by intro h; simp at h }, rfl, rfl, rfl⟩,
    ⟨flying .keyclr testKey 0, _, flying_invariant rfl _ _, rfl, rfl, rfl, rfl⟩,
    { loaded testKey 0 with program := [.wr .key (.var 0)] }, _, { loaded_invariant testKey 0 with }, rfl, rfl, rfl, rfl⟩

/-- The host polls STATUS while ENC is in flight. -/
theorem witness_RegistersAreStableInFlight :
    ∃ s t : State, StateInvariant s ∧ step s = .next t ∧ s.busy = true ∧ t.busy = true :=
  ⟨{ flying .enc testKey 0 with wait := 1, program := [.rd 7 .status] }, _,
    { flying_invariant (i := .enc) rfl testKey 0 with }, rfl, rfl, rfl⟩

/-- An idle machine whose schedule is not valid, holding the same number in every subkey. -/
def invalidated (k : Subkey) (p : List HostStmt) : State :=
  { loaded testKey 0 with keyValid := false, sk := Vector.replicate 16 k, program := p }

theorem invalidated_invariant (k : Subkey) (p : List HostStmt) : StateInvariant (invalidated k p) :=
  { loaded_invariant testKey 0 with
    admitted := by intro f h; simp [invalidated, loaded, State.reset] at h
    schedule := by intro h; simp [invalidated] at h }

/-- A next step, a fault and a refusal. -/
theorem witness_InvalidScheduleIsNotObservable :
    (∀ p, StateInvariant (invalidated 1 p) ∧ SameButInvalidSchedule (invalidated 1 p) (invalidated 2 p)) ∧
    (∃ s', step (invalidated 1 []) = .next s') ∧
    (∃ e, step (invalidated 1 [.assert (bitIs 7 1 1)]) = .fault e) ∧
    (∃ e, step (invalidated 1 [.cmd (.round 16)]) = .refused e) :=
  ⟨fun p => ⟨invalidated_invariant 1 p, rfl, rfl⟩, ⟨_, rfl⟩, ⟨_, rfl⟩, _, rfl⟩

theorem witness_RunCompletesForEveryLatency :
    ∃ (s : State) (i : Instr) (rest : List HostStmt), StateInvariant s ∧ Idle s ∧ i.wellFormed = true ∧
      (needsKey i = true → s.keyValid = true) ∧ s.resets = [] ∧ s.program = .run i :: rest :=
  ⟨{ loaded testKey 0 with program := [.run .enc, .rd 0 .dout], latencies := [5] }, .enc, [.rd 0 .dout],
    { loaded_invariant testKey 0 with }, ⟨rfl, rfl⟩, rfl, fun _ => rfl, rfl, rfl⟩

theorem witness_ErrBusyUnderClrerrIsLost :
    ∃ (s : State) (key din : Word), s.busy = true ∧ s.err = 0 ∧ InFlightIs .clrerr key din s :=
  ⟨flying .clrerr 1 2, 1, 2, rfl, rfl, rfl⟩

/-- A condition of each truth value, and one statement of each kind the first clause names. -/
theorem witness_HostComputationTouchesNoRegister :
    (∀ st ∈ [HostStmt.skip, .seq .skip .skip, .assign 1 (.var 0), .assert (bitIs 7 1 0), .forLoop 0 1 1 .skip,
        .loopUntil .skip (bitIs 7 1 0), .untilCheck .skip (bitIs 7 1 0)],
      ∃ s t : State, runStmt st s = .next t) ∧
    (Cond.wellFormed (bitIs 7 1 1) = true ∧ Cond.eval State.reset.hostVars (bitIs 7 1 1) = false) ∧
    (Cond.wellFormed (bitIs 7 1 0) = true ∧ Cond.eval State.reset.hostVars (bitIs 7 1 0) = true) := by
  refine ⟨fun st h => ⟨State.reset, ?_⟩, ⟨rfl, rfl⟩, rfl, rfl⟩
  simp only [List.mem_cons, List.not_mem_nil, or_false] at h
  rcases h with rfl | rfl | rfl | rfl | rfl | rfl | rfl <;> exact ⟨_, rfl⟩

/-- No 0 at all; the last 0 first, and last. -/
theorem witness_UnpadTruncatesAtTheLastZero :
    (∀ x ∈ ([true, true] : Bits), x = true) ∧
    (∃ (b : Bits) (j : Nat), j < b.length ∧ b.getD j true = false ∧ ∀ k, j < k → b.getD k true = true) :=
  ⟨by decide, [false], 0, by decide, rfl, fun k h => by
    obtain ⟨n, rfl⟩ : ∃ n, k = n + 1 := ⟨k - 1, by omega⟩
    rfl⟩

theorem witness_BitsSurviveTheirHex : ∃ b : Bits, b.length % 4 = 0 ∧ b ≠ [] := ⟨[true, false, true, false], by decide⟩

theorem witness_DriverEncryptsEachBlockAlone : Idle State.reset ∧ (textToBits keyText).length = 64 :=
  ⟨⟨rfl, rfl⟩, by decide +kernel⟩

/-- A short key; not hex; not whole blocks; whole blocks without a 0 bit; a 0 bit but not whole bytes; a text. -/
theorem witness_DriverFaultOrder :
    Idle State.reset ∧ (textToBits ['a']).length ≠ 64 ∧ (textToBits keyText).length = 64 ∧
    (match hexToBits ['z'] with | .error _ => true | .ok _ => false) = true ∧
    (match hexToBits ['0'] with | .ok b => decide (b.length % 64 ≠ 0) | .error _ => false) = true ∧
    (match hexToBits [] with | .ok b => decide (b.length % 64 = 0) | .error _ => false) = true ∧
    (match unpad [] with | .error _ => true | .ok _ => false) = true ∧
    (match bitsToText [true] with | .error _ => true | .ok _ => false) = true ∧
    (match bitsToText [] with | .ok _ => true | .error _ => false) = true :=
  ⟨⟨rfl, rfl⟩, by decide +kernel⟩

/-- The key and a wrong key. -/
theorem witness_MessageRoundTrip :
    Idle State.reset ∧ Idle (loaded testKey 0) ∧ (textToBits keyText).length = 64 ∧
    (textToBits ['A', 'B', 'C', 'D', 'E', 'F', 'G', 'H']).length = 64 :=
  ⟨⟨rfl, rfl⟩, ⟨rfl, rfl⟩, by decide +kernel⟩

end Sys2Proof.Tests
end

section
/-! The register window: what an access of each slot does (R64), and which accesses may be repeated (R65). -/

namespace Sys2Proof.Machine

/-! ### One rule per access -/

/-- A read has no side effect another read can see: no slot shows a host variable. -/
@[simp] theorem hostRead_setHostVar (r : Slot) (n : Fin 8) (v : Word) (s : State) :
    hostRead r (setHostVar n v s) = hostRead r s := by
  cases r <;> rfl

section hostWrite
variable {s : State} (v : Word)

theorem hostWrite_busy (r : Slot) (hb : s.busy = true) : hostWrite r v s = .next (drop s) := by
  simp [hostWrite, hb]

theorem hostWrite_key (hb : s.busy = false) : hostWrite .key v s = .next { s with key := v, keyValid := false } := by
  simp [hostWrite, hb]

theorem hostWrite_din (hb : s.busy = false) : hostWrite .din v s = .next { s with din := v } := by
  simp [hostWrite, hb]

theorem hostWrite_cmd (hb : s.busy = false) : hostWrite .cmd v s = cmdWrite v s := by
  simp [hostWrite, hb]

/-- DOUT, STATUS and the reserved slots ignore writes. -/
theorem hostWrite_ignored (hb : s.busy = false) {r : Slot} (hr : r ∈ [Slot.dout, .status, .rsv5, .rsv6, .rsv7]) :
    hostWrite r v s = .next s := by
  cases r with
  | key | din | cmd => simp at hr
  | dout | status | rsv5 | rsv6 | rsv7 => simp [hostWrite, hb]

end hostWrite

/-! ### The CMD write -/

theorem cmdWrite_error {w : Word} {c : ErrCode} (hd : decode w = .error c) (s : State) :
    cmdWrite w s = .next (reject c s) := by
  simp [cmdWrite, hd]

theorem cmdWrite_ok {w : Word} {i : Instr} {s : State} (hd : decode w = .ok i) (hf : s.inflight = none) :
    cmdWrite w s = .next (issue i s) := by
  rw [← exec_at_write (decode_wellFormed hd) hf]
  simp [cmdWrite, hd]

/-- Every CMD write to an idle machine rejects a command or accepts one. -/
theorem cmdWrite_idle_cases (w : Word) {s : State} (hs : Idle s) :
    (∃ c, cmdWrite w s = .next (reject c s)) ∨ (∃ i, cmdWrite w s = .next (accept i (clearDone s))) := by
  obtain ⟨hb, hf⟩ := hs
  cases hd : decode w with
  | error c => exact .inl ⟨c, cmdWrite_error hd s⟩
  | ok i =>
    rw [cmdWrite_ok hd hf]
    obtain ⟨hb', _⟩ | ⟨_, _, _, he⟩ | ⟨_, _, he⟩ := issue_cases i s
    · simp [hb] at hb'
    · exact .inl ⟨.noKey, congrArg _ he⟩
    · exact .inr ⟨i, congrArg _ he⟩

theorem code_ne_zero (c : ErrCode) : c.code ≠ 0 := by
  cases c <;> decide

/-- After a rejection some error is recorded, this one or an earlier one (R303). -/
theorem reject_err_ne_zero (c : ErrCode) (s : State) : (reject c s).err ≠ 0 := by
  rw [reject_err]
  split
  · exact code_ne_zero c
  · assumption

/-- A dropped write shows where no error was recorded before it. -/
theorem drop_ne_self {s : State} (he : s.err = 0) : drop s ≠ s := by
  intro h
  have : (drop s).err = 0 := by rw [h, he]
  simp [he] at this

/-- Where a CMD write ends busy, the command was accepted. -/
theorem cmdWrite_accepted {w : Word} {s t : State} (hs : Idle s) (h : cmdWrite w s = .next t) (hb : t.busy = true) :
    ∃ i, t = accept i (clearDone s) := by
  obtain ⟨c, hc⟩ | ⟨i, hi⟩ := cmdWrite_idle_cases w hs
  · obtain rfl := Host.Outcome.next.inj (hc.symm.trans h)
    simp [hs.1] at hb
  · exact ⟨i, (Host.Outcome.next.inj (hi.symm.trans h)).symm⟩

/-! ### Repeating a write (R65) -/

/-- A DIN write leaves the machine not busy with DIN as written, so the next one finds nothing to change. -/
theorem hostWrite_din_repeat {s t : State} {v : Word} (hb : s.busy = false) (h : hostWrite .din v s = .next t) :
    hostWrite .din v t = .next t := by
  rw [hostWrite_din v hb] at h
  cases h
  exact hostWrite_din v hb

theorem hostWrite_key_repeat {s t : State} {v : Word} (hb : s.busy = false) (h : hostWrite .key v s = .next t) :
    t.keyValid = false ∧ hostWrite .key v t = .next t := by
  rw [hostWrite_key v hb] at h
  cases h
  exact ⟨rfl, hostWrite_key v hb⟩

theorem hostWrite_cmd_starts_or_rejects (w : Word) {s : State} (hs : Idle s) :
    ∃ t, hostWrite .cmd w s = .next t ∧
      ((t.busy = true ∧ t.inflight.isSome = true) ∨
        (t.busy = false ∧ t.inflight = none ∧ t.done = false ∧ t.err ≠ 0)) := by
  rw [hostWrite_cmd w hs.1]
  obtain ⟨c, hc⟩ | ⟨i, hi⟩ := cmdWrite_idle_cases w hs
  · exact ⟨_, hc, .inr ⟨hs.1, hs.2, rfl, reject_err_ne_zero c s⟩⟩
  · exact ⟨_, hi, .inl ⟨rfl, rfl⟩⟩

/-- The second of two CMD writes finds the machine busy with the first one's command and records ERR_BUSY. -/
theorem hostWrite_cmd_repeat_ne {s t u : State} {w : Word} (hs : Idle s) (he : s.err = 0)
    (h : hostWrite .cmd w s = .next t) (hb : t.busy = true) (hu : hostWrite .cmd w t = .next u) : u ≠ t := by
  rw [hostWrite_cmd w hs.1] at h
  obtain ⟨i, rfl⟩ := cmdWrite_accepted hs h hb
  rw [hostWrite_busy w .cmd hb] at hu
  cases hu
  exact drop_ne_self he

/-- Settles O35: reads see no host variable; each kind of write by its own rule. -/
theorem readsAndRepeatedWrites : Obligations.ReadsAndRepeatedWrites :=
  ⟨fun s n r => ⟨rfl, hostRead_setHostVar r n (hostRead r s) s⟩,
    fun _ _ _ hb => ⟨hostWrite_din_repeat hb, hostWrite_key_repeat hb⟩,
    fun _ w hs => hostWrite_cmd_starts_or_rejects w hs,
    fun _ _ _ _ hs he h hb hu => hostWrite_cmd_repeat_ne hs he h hb hu,
    fun _ v hb _ hr => hostWrite_ignored v hb hr⟩

/-- Settles O34: the rule of each access, with `statusWord_eq` for the layout of STATUS (R36). -/
theorem slotReadsAndWrites : Obligations.SlotReadsAndWrites := by
  intro s
  refine ⟨⟨rfl, rfl, rfl, rfl, statusWord_eq s, rfl, rfl, rfl⟩, fun hb v => ?_, fun hb r v => hostWrite_busy v r hb⟩
  exact ⟨hostWrite_key v hb, hostWrite_din v hb, hostWrite_cmd v hb, hostWrite_ignored v hb (by simp),
    hostWrite_ignored v hb (by simp), hostWrite_ignored v hb (by simp), hostWrite_ignored v hb (by simp),
    hostWrite_ignored v hb (by simp)⟩

end Sys2Proof.Machine
end

section
/-! The permutation units: each copies the bits its table names (R120), FP and IP undo each other (R124), and the shape of
the six tables (R129). -/

namespace Sys2Proof.Machine

/-! ### DES bits -/

/-- Two values with the same DES bits are equal. -/
theorem eq_of_desBit_eq {w : Nat} {x y : BitVec w} (h : ∀ n, 1 ≤ n → n ≤ w → desBit x n = desBit y n) : x = y := by
  apply BitVec.eq_of_getLsbD_eq
  intro i hi
  have hbit := h (w - i) (by omega) (by omega)
  rwa [desBit, desBit, Nat.sub_sub_self hi.le] at hbit

/-- `perm_getLsbD` in the numbering of the tables (R15, R120). -/
theorem perm_desBit (table : List Nat) {win wout : Nat} (v : BitVec win) (hl : table.length = wout) {n : Nat} (hn : 1 ≤ n)
    (hw : n ≤ wout) : desBit (perm table wout v) n = desBit v (table.getD (n - 1) 0) := by
  rw [desBit, perm_getLsbD table v hl _ (by omega)]
  congr 2
  omega

/-- Settles O21: `perm_desBit` at DES bit i + 1. -/
theorem permutationCopiesTableBits : Obligations.PermutationCopiesTableBits := by
  intro table win v i h
  have hbit := perm_desBit table v rfl (Nat.le_add_left 1 i) h
  rwa [Nat.add_sub_cancel, List.getD_eq_getElem _ _ h] at hbit

/-! ### One permutation undone by another -/

/-- Where T[U[n]] = n, the permutation with U undoes the one with T: its DES bit n is bit U[n] of the middle value, and so
bit T[U[n]] of `v`. -/
theorem perm_perm_cancel {t u : List Nat} {w : Nat} (ht : t.length = w) (hu : u.length = w)
    (hrange : ∀ x ∈ u, 1 ≤ x ∧ x ≤ w) (hinv : ∀ n, 1 ≤ n → n ≤ w → t.getD (u.getD (n - 1) 0 - 1) 0 = n) (v : BitVec w) :
    perm u w (perm t w v) = v := by
  apply eq_of_desBit_eq
  intro n hn hw
  have hlt : n - 1 < u.length := by omega
  obtain ⟨hlo, hhi⟩ : 1 ≤ u.getD (n - 1) 0 ∧ u.getD (n - 1) 0 ≤ w := by
    rw [List.getD_eq_getElem _ _ hlt]
    exact hrange _ (List.getElem_mem hlt)
  rw [perm_desBit u _ hu hn hw, perm_desBit t v ht hlo hhi, hinv n hn hw]

@[simp] theorem ipTable_length : ipTable.length = 64 := rfl

@[simp] theorem fpTable_length : fpTable.length = 64 := rfl

theorem ipTable_range : ∀ t ∈ ipTable, 1 ≤ t ∧ t ≤ 64 := by decide

theorem fpTable_range : ∀ t ∈ fpTable, 1 ≤ t ∧ t ≤ 64 := by decide

/-- `FP[IP[i]] = i` (R124). -/
theorem fpTable_ipTable : ∀ i, 1 ≤ i → i ≤ 64 → fpTable.getD (ipTable.getD (i - 1) 0 - 1) 0 = i := by decide

/-- `IP[FP[i]] = i` (R124). -/
theorem ipTable_fpTable : ∀ i, 1 ≤ i → i ≤ 64 → ipTable.getD (fpTable.getD (i - 1) 0 - 1) 0 = i := by decide

@[simp] theorem permFp_permIp (v : Word) : permFp (permIp v) = v :=
  perm_perm_cancel ipTable_length fpTable_length fpTable_range ipTable_fpTable v

@[simp] theorem permIp_permFp (v : Word) : permIp (permFp v) = v :=
  perm_perm_cancel fpTable_length ipTable_length ipTable_range fpTable_ipTable v

/-- Settles O23: each table undoes the other entry by entry, and `perm_perm_cancel` lifts that to values. -/
theorem finalPermutationInvertsInitial : Obligations.FinalPermutationInvertsInitial :=
  ⟨fun v => ⟨permFp_permIp v, permIp_permFp v⟩, fpTable_ipTable⟩

/-! ### The shape of the tables -/

@[simp] theorem pTable_length : pTable.length = 32 := rfl

theorem pTable_range : ∀ t ∈ pTable, 1 ≤ t ∧ t ≤ 32 := by decide

theorem ipTable_nodup : ipTable.Nodup := by decide

theorem fpTable_nodup : fpTable.Nodup := by decide

theorem pTable_nodup : pTable.Nodup := by decide

/-- A table of `w` different entries in 1..w holds each of these numbers exactly once (R129 (c) from (a) and (b)): there are
only `w` of them, so none is left out. -/
theorem count_eq_one_of_nodup {table : List Nat} {w : Nat} (hl : table.length = w) (hrange : ∀ t ∈ table, 1 ≤ t ∧ t ≤ w)
    (hd : table.Nodup) (n : Nat) (hn : 1 ≤ n) (hw : n ≤ w) : table.count n = 1 := by
  have hsub : table.toFinset ⊆ Finset.Icc 1 w := fun t ht => Finset.mem_Icc.2 (hrange t (List.mem_toFinset.1 ht))
  have hcard : (Finset.Icc 1 w).card ≤ table.toFinset.card := by simp [List.toFinset_card_of_nodup hd, hl]
  have hall : table.toFinset = Finset.Icc 1 w := Finset.eq_of_subset_of_card_le hsub hcard
  have hmem : n ∈ table := by rw [← List.mem_toFinset, hall]; exact Finset.mem_Icc.2 ⟨hn, hw⟩
  exact List.count_eq_one_of_mem hd hmem

/-- Settles O22: lengths, ranges and repetitions read off the tables; the bijections of IP, FP and P by counting. -/
theorem permutationTableInvariants : Obligations.PermutationTableInvariants :=
  ⟨⟨ipTable_length, fpTable_length, rfl, pTable_length, rfl, rfl⟩,
    ⟨ipTable_range, fpTable_range, by decide, pTable_range, by decide, by decide⟩,
    ⟨ipTable_nodup, fpTable_nodup, pTable_nodup, by decide, by decide⟩,
    ⟨count_eq_one_of_nodup ipTable_length ipTable_range ipTable_nodup,
      count_eq_one_of_nodup fpTable_length fpTable_range fpTable_nodup,
      count_eq_one_of_nodup pTable_length pTable_range pTable_nodup⟩,
    by decide, by decide⟩

end Sys2Proof.Machine
end

section
/-! The substitution engine: each output nibble is its own S-box's entry for its own input group, and no lane carries into
another (R163). -/

namespace Sys2Proof.Machine

/-! ### The tables -/

/-- The table of output nibble `k`, S-box k+1 (R163). -/
def sboxTable (k : Fin 8) : List Nat :=
  #v[s1Table, s2Table, s3Table, s4Table, s5Table, s6Table, s7Table, s8Table][k]

@[simp] theorem sboxTable_length (k : Fin 8) : (sboxTable k).length = 64 := by
  revert k; decide

theorem sboxTable_lt (k : Fin 8) : ∀ t ∈ sboxTable k, t < 16 := by
  revert k; decide

/-! ### The groups -/

/-- The last bit of group `k`, the low bit of the row (R162). -/
theorem sboxGroup_getLsbD_zero (x : Subkey) (k : Nat) : (sboxGroup x k).getLsbD 0 = x.getLsbD (42 - 6 * k) := by
  simp [sboxGroup]

/-- The first bit of group `k`, the high bit of the row (R162). -/
theorem sboxGroup_getLsbD_five (x : Subkey) {k : Nat} (hk : k < 8) :
    (sboxGroup x k).getLsbD 5 = x.getLsbD (47 - 6 * k) := by
  have hpos : 42 - 6 * k + 5 = 47 - 6 * k := by omega
  simp [sboxGroup, hpos]

/-- The middle four bits of group `k`, the column (R162). -/
theorem sboxGroup_middle (x : Subkey) {k : Nat} (hk : k < 8) :
    (sboxGroup x k).extractLsb' 1 4 = x.extractLsb' (43 - 6 * k) 4 := by
  apply BitVec.eq_of_getLsbD_eq
  intro i hi
  have hin : 1 + i < 6 := by omega
  have hpos : 42 - 6 * k + (1 + i) = 43 - 6 * k + i := by omega
  simp [sboxGroup, hin, hpos]

/-! ### The lanes -/

/-- Output nibble `k` as the entry at the row and column of group `k`, said with the bits of the input. -/
theorem substitute_nibble_toNat (x : Subkey) (k : Fin 8) :
    ((substitute x).extractLsb' (28 - 4 * k.val) 4).toNat =
      (sboxTable k).getD
        (((x.getLsbD (47 - 6 * k.val)).toNat * 2 + (x.getLsbD (42 - 6 * k.val)).toNat) * 16 +
          (x.extractLsb' (43 - 6 * k.val) 4).toNat) 0 := by
  have hlookup : (substitute x).extractLsb' (28 - 4 * k.val) 4 = sboxLookup (sboxTable k) (sboxGroup x k.val) :=
    substitute_nibble x k
  rw [hlookup, sboxLookup_toNat _ (sboxTable_lt k) (sboxTable_length k), sboxGroup_getLsbD_five x k.isLt,
    sboxGroup_getLsbD_zero, sboxGroup_middle x k.isLt]

/-- Inputs with the same group `k` have the same output nibble `k`. -/
theorem substitute_nibble_congr {x y : Subkey} (k : Fin 8) (h : sboxGroup x k.val = sboxGroup y k.val) :
    (substitute x).extractLsb' (28 - 4 * k.val) 4 = (substitute y).extractLsb' (28 - 4 * k.val) 4 := by
  rw [substitute_nibble, substitute_nibble, h]

/-- Settles O24: each nibble is a lookup of its own group (`substitute_nibble`), read as an entry of the table, and so a
function of that group. -/
theorem substitutionLanesAreIndependent : Obligations.SubstitutionLanesAreIndependent :=
  fun x _ k => ⟨substitute_nibble_toNat x k, substitute_nibble_congr k⟩

end Sys2Proof.Machine
end

section
/-! The key schedule: the rotation of a round (R180, R182), the halves after `i` rounds as one rotation of C_0 and D_0 (R184,
R185), and the keys of R187. -/

namespace Sys2Proof.Machine

/-! ### The rotation of a half -/

/-- Rotation toward DES bit 1, wrapping after DES bit 28 (R182). -/
theorem rotl28_desBit (x : KeyHalf) {s n : Nat} (hs : s ≤ 28) (hn : 1 ≤ n) (hw : n ≤ 28) :
    desBit (rotl28 x s) n = desBit x (if n + s ≤ 28 then n + s else n + s - 28) := by
  simp only [desBit, rotl28, BitVec.getLsbD_or, BitVec.getLsbD_shiftLeft, BitVec.getLsbD_ushiftRight]
  split
  next hin =>
    have hout : 28 ≤ 28 - s + (28 - n) := by omega
    have hpos : 28 - n - s = 28 - (n + s) := by omega
    have hlt : 28 - n < 28 ∧ ¬ 28 - n < s := by omega
    simp [hout, hpos, hlt]
  next hwrap =>
    have hlt : 28 - n < s := by omega
    have hpos : 28 - s + (28 - n) = 28 - (n + s - 28) := by omega
    simp [hlt, hpos]

/-- Rotations add up, as long as they turn the half at most once round. -/
theorem rotl28_rotl28 (x : KeyHalf) {a b : Nat} (h : a + b ≤ 28) : rotl28 (rotl28 x a) b = rotl28 x (a + b) := by
  apply eq_of_desBit_eq
  intro n hn hw
  rw [rotl28_desBit _ (by omega) hn hw, rotl28_desBit _ (by omega) (by split <;> omega) (by split <;> omega),
    rotl28_desBit _ h hn hw]
  congr 1
  split_ifs <;> omega

@[simp] theorem rotl28_zero (x : KeyHalf) : rotl28 x 0 = x := by
  apply eq_of_desBit_eq
  intro n hn hw
  rw [rotl28_desBit x (by omega) hn hw, Nat.add_zero, if_pos hw]

/-- A whole turn. -/
@[simp] theorem rotl28_full (x : KeyHalf) : rotl28 x 28 = x := by
  apply eq_of_desBit_eq
  intro n hn hw
  rw [rotl28_desBit x le_rfl hn hw, if_neg (by omega), Nat.add_sub_cancel]

/-- A half of equal bits stays as it is. -/
theorem rotl28_of_constant {x : KeyHalf} (hx : x = 0 ∨ x = 0xFFFFFFF) {s : Nat} (hs : s ≤ 28) : rotl28 x s = x := by
  obtain rfl | rfl := hx
  · simp [rotl28]
  · have hbit : ∀ m, 1 ≤ m → m ≤ 28 → desBit (0xFFFFFFF : KeyHalf) m = true := by decide
    apply eq_of_desBit_eq
    intro n hn hw
    rw [rotl28_desBit _ hs hn hw, hbit n hn hw, hbit _ (by split <;> omega) (by split <;> omega)]

/-! ### The rotation of a round -/

theorem keyLeft_desBit (cd : KeyState) {n : Nat} (hn : 1 ≤ n) (hw : n ≤ 28) : desBit (keyLeft cd) n = desBit cd n := by
  have hlt : 28 - n < 28 := by omega
  have hpos : 28 + (28 - n) = 56 - n := by omega
  simp [desBit, keyLeft, hlt, hpos]

theorem keyRight_desBit (cd : KeyState) {n : Nat} (hn : 1 ≤ n) (hw : n ≤ 28) :
    desBit (keyRight cd) n = desBit cd (28 + n) := by
  have hlt : 28 - n < 28 := by omega
  have hpos : 56 - (28 + n) = 28 - n := by omega
  simp [desBit, keyRight, hlt, hpos]

@[simp] theorem keyLeft_rotateHalves (cd : KeyState) (i : Fin 16) :
    keyLeft (rotateHalves cd i) = rotl28 (keyLeft cd) shiftsTable[i] :=
  keyLeft_append _ _

@[simp] theorem keyRight_rotateHalves (cd : KeyState) (i : Fin 16) :
    keyRight (rotateHalves cd i) = rotl28 (keyRight cd) shiftsTable[i] :=
  keyRight_append _ _

/-- R180 by the rounds that shift by one. -/
theorem shiftsTable_eq (i : Fin 16) :
    shiftsTable[i] = if i.val = 0 ∨ i.val = 1 ∨ i.val = 8 ∨ i.val = 15 then 1 else 2 := by
  revert i; decide

/-- Settles O25: a round rotates each half by `rotl28`, whose bits `rotl28_desBit` gives, within that half. -/
theorem roundRotationOfTheHalves : Obligations.RoundRotationOfTheHalves := by
  intro cd i
  refine ⟨shiftsTable_eq i, fun n hn hw => ?_⟩
  obtain ⟨_, hle⟩ := shiftsTable_le i
  have hs : shiftsTable[i] ≤ 28 := by omega
  rw [keyLeft_rotateHalves, keyRight_rotateHalves, rotl28_desBit _ hs hn hw, rotl28_desBit _ hs hn hw]
  exact ⟨keyLeft_desBit cd (by split <;> omega) (by split <;> omega),
    keyRight_desBit cd (by split <;> omega) (by split <;> omega)⟩

/-! ### The halves after several rounds -/

/-- The sum of the shifts of the first `i` rounds (R184). -/
def totalShift (i : Nat) : Nat := (shiftsTable.toList.take i).sum

theorem shiftsTable_sum : shiftsTable.toList.sum = 28 := rfl

@[simp] theorem totalShift_zero : totalShift 0 = 0 := rfl

@[simp] theorem totalShift_sixteen : totalShift 16 = 28 := rfl

/-- The shift is the one `keyState` reads for round `i`. -/
theorem totalShift_succ {i : Nat} (hi : i < 16) : totalShift (i + 1) = totalShift i + shiftsTable[Fin.ofNat 16 i] := by
  have hround : Fin.ofNat 16 i = ⟨i, hi⟩ := Fin.ext (Nat.mod_eq_of_lt hi)
  simp only [hround]
  exact List.sum_take_succ shiftsTable.toList i hi

theorem totalShift_le (i : Nat) : totalShift i ≤ 28 := by
  have hsum := List.sum_take_add_sum_drop shiftsTable.toList i
  rw [shiftsTable_sum] at hsum
  exact hsum ▸ Nat.le_add_right _ _

/-- C_i‖D_i is C_0 and D_0, each rotated by the shifts so far: what carries forward is C‖D (R184). -/
theorem keyState_eq (key : Word) {i : Nat} (hi : i ≤ 16) :
    keyState key i =
      rotl28 (keyLeft (permPc1 key)) (totalShift i) ++ rotl28 (keyRight (permPc1 key)) (totalShift i) := by
  induction i with
  | zero => simp [keyState]
  | succ i ih =>
    have hle := totalShift_le (i + 1)
    rw [totalShift_succ hi] at hle ⊢
    rw [keyState, ih (Nat.le_of_succ_le hi), rotateHalves, keyLeft_append, keyRight_append, rotl28_rotl28 _ hle,
      rotl28_rotl28 _ hle]

/-- Settles O26: sixteen rounds are one whole turn of each half. -/
theorem halvesReturnToTheirStart : Obligations.HalvesReturnToTheirStart := by
  refine ⟨shiftsTable_sum, fun key => ?_⟩
  rw [keyState_eq key le_rfl, totalShift_sixteen]
  simp [keyState]

/-! ### The subkeys (R187) -/

/-- A subkey said with C_0 and D_0. -/
theorem roundKey_eq (key : Word) (i : Fin 16) :
    roundKey key i = permPc2 (rotl28 (keyLeft (permPc1 key)) (totalShift (i.val + 1)) ++
      rotl28 (keyRight (permPc1 key)) (totalShift (i.val + 1))) := by
  rw [roundKey, keyState_eq key i.isLt]

/-- The schedule is a function of PC-1 of the key. -/
theorem keySchedule_congr {k l : Word} (h : permPc1 k = permPc1 l) : keySchedule k = keySchedule l := by
  have hround : roundKey k = roundKey l := by
    funext i
    rw [roundKey_eq, roundKey_eq, h]
  rw [keySchedule, keySchedule, hround]

/-- A permutation reads only the bits its table names. -/
theorem perm_congr {table : List Nat} {win wout : Nat} {v w : BitVec win}
    (h : ∀ t ∈ table, desBit v t = desBit w t) : perm table wout v = perm table wout w :=
  List.foldl_ext _ _ _ fun acc t ht => by rw [h t ht]

/-- PC-1 names no parity bit, DES bit 8, 16, …, 64. -/
theorem pc1Table_skips_parity : ∀ t ∈ pc1Table, desBit (0x0101010101010101 : Word) t = false := by decide

theorem permPc1_xor_parity (key : Word) {m : Word} (hm : m &&& 0x0101010101010101 = m) :
    permPc1 (key ^^^ m) = permPc1 key := by
  apply perm_congr
  intro t ht
  have hbit : desBit m t = false := by
    have hand : desBit m t = (desBit m t && desBit (0x0101010101010101 : Word) t) := by
      conv_lhs => rw [← hm]
      exact BitVec.getLsbD_and
    rw [hand, pc1Table_skips_parity t ht, Bool.and_false]
  have hxor : desBit (key ^^^ m) t = (desBit key t ^^ desBit m t) := BitVec.getLsbD_xor
  rw [hxor, hbit, Bool.xor_false]

/-- Rotation does not move a half of equal bits, so every round uses PC-2 of the same C_0‖D_0. -/
theorem keySchedule_of_constant_halves {key : Word} {cd : KeyState} (hpc1 : permPc1 key = cd)
    (hc : keyLeft cd = 0 ∨ keyLeft cd = 0xFFFFFFF) (hd : keyRight cd = 0 ∨ keyRight cd = 0xFFFFFFF) :
    keySchedule key = Vector.replicate 16 (permPc2 cd) := by
  ext1 i hi
  rw [keySchedule, Vector.getElem_ofFn, Vector.getElem_replicate, roundKey_eq, hpc1, rotl28_of_constant hc (totalShift_le _),
    rotl28_of_constant hd (totalShift_le _), keyLeft_append_keyRight]

/-- Equal subkeys read the same in both orders. -/
theorem encryptBlock_replicate (k : Subkey) (b : Word) :
    encryptBlock (Vector.replicate 16 k) b = decryptBlock (Vector.replicate 16 k) b := by
  rw [encryptBlock, decryptBlock, Vector.toList_replicate, List.reverse_replicate]

theorem permPc1_zero : permPc1 0 = 0 := by decide +kernel

theorem permPc1_ones : permPc1 0xFFFFFFFFFFFFFFFF = 0xFFFFFFFFFFFFFF := by decide +kernel

theorem permPc2_zero : permPc2 0 = 0 := by decide +kernel

theorem permPc2_ones : permPc2 0xFFFFFFFFFFFFFF = 0xFFFFFFFFFFFF := by decide +kernel

theorem keySchedule_zero : keySchedule 0 = Vector.replicate 16 0 := by
  rw [keySchedule_of_constant_halves permPc1_zero (by decide) (by decide), permPc2_zero]

theorem keySchedule_ones : keySchedule 0xFFFFFFFFFFFFFFFF = Vector.replicate 16 0xFFFFFFFFFFFF := by
  rw [keySchedule_of_constant_halves permPc1_ones (by decide) (by decide), permPc2_ones]

/-- C_0‖D_0 of the spec's four keys with constant halves (R187 (c)). -/
theorem permPc1_weak_keys :
    permPc1 0x0101010101010101 = 0 ∧ permPc1 0xFEFEFEFEFEFEFEFE = 0xFFFFFFFFFFFFFF ∧
    permPc1 0x1F1F1F1F0E0E0E0E = 0x0000000FFFFFFF ∧ permPc1 0xE0E0E0E0F1F1F1F1 = 0xFFFFFFF0000000 := by
  decide +kernel

theorem weak_keys_constant_halves :
    ∀ key ∈ ([0x0101010101010101, 0xFEFEFEFEFEFEFEFE, 0x1F1F1F1F0E0E0E0E, 0xE0E0E0E0F1F1F1F1] : List Word),
      (keyLeft (permPc1 key) = 0 ∨ keyLeft (permPc1 key) = 0xFFFFFFF) ∧
      (keyRight (permPc1 key) = 0 ∨ keyRight (permPc1 key) = 0xFFFFFFF) := by
  obtain ⟨hzeros, hones, hright, hleft⟩ := permPc1_weak_keys
  rw [List.forall_mem_cons, List.forall_mem_cons, List.forall_mem_cons, List.forall_mem_singleton, hzeros, hones, hright,
    hleft]
  decide

/-- Settles O28: PC-1 skips the parity bits, and constant halves make a schedule of sixteen copies of one subkey. -/
theorem keyScheduleProperties : Obligations.KeyScheduleProperties := by
  refine ⟨fun key m hm => keySchedule_congr (permPc1_xor_parity key hm), fun i => ?_, fun key hc hd => ?_,
    weak_keys_constant_halves⟩
  · rw [keySchedule_zero, keySchedule_ones]
    simp
  · rw [keySchedule_of_constant_halves rfl hc hd]
    exact ⟨fun i j => by simp, encryptBlock_replicate _⟩

end Sys2Proof.Machine
end

section
/-! The Feistel rounds: the sixteen rounds undone by the reversed subkeys (R216), complements carried through every unit
(R217), and the parity bits of the key (R218). -/

namespace Sys2Proof.Machine

/-! ### The rounds undone (R216) -/

/-- The rounds in reverse order take the result, its halves swapped, back to the swapped start: each reversed round meets the
round it undoes (`feistelRound_swap`). -/
theorem foldl_feistelRound_reverse (ks : List Subkey) (lr : Half × Half) :
    ks.reverse.foldl feistelRound (ks.foldl feistelRound lr).swap = lr.swap := by
  induction ks generalizing lr with
  | nil => rfl
  | cons k ks ih =>
    rw [List.foldl_cons, List.reverse_cons, List.foldl_append, ih]
    exact Prod.swap_eq_iff_eq_swap.1 (feistelRound_swap lr k)

/-- `rounds` swaps the halves in its output, so the reversed subkeys undo it. -/
theorem rounds_rounds_reverse (b : Word) (ks : List Subkey) : rounds (rounds b ks) ks.reverse = b := by
  have hundo := foldl_feistelRound_reverse ks (leftHalf b, rightHalf b)
  simp only [Prod.swap] at hundo
  simp only [rounds, leftHalf_append, rightHalf_append, hundo, leftHalf_append_rightHalf]

/-- For every subkey file, a schedule or not. -/
theorem decryptBlock_encryptBlock (sk : Vector Subkey 16) (b : Word) : decryptBlock sk (encryptBlock sk b) = b := by
  rw [encryptBlock, decryptBlock, permIp_permFp, rounds_rounds_reverse, permFp_permIp]

theorem encryptBlock_decryptBlock (sk : Vector Subkey 16) (b : Word) : encryptBlock sk (decryptBlock sk b) = b := by
  have hundo := rounds_rounds_reverse (permIp b) sk.toList.reverse
  rw [List.reverse_reverse] at hundo
  rw [encryptBlock, decryptBlock, permIp_permFp, hundo, permFp_permIp]

/-- Settles O29: IP undoes FP between the two, and the rounds undo each other under any subkeys. -/
theorem decryptionInvertsEncryption : Obligations.DecryptionInvertsEncryption :=
  fun k b => ⟨decryptBlock_encryptBlock (keySchedule k) b, encryptBlock_decryptBlock (keySchedule k) b⟩

/-! ### Complements through the permutations and the halves -/

theorem desBit_not {w : Nat} (v : BitVec w) {n : Nat} (hn : 1 ≤ n) (hw : n ≤ w) : desBit (~~~v) n = !desBit v n := by
  have hlt : w - n < w := by omega
  simp [desBit, hlt]

/-- A table that names only bits of its operand copies complemented bits. -/
theorem perm_not {table : List Nat} {win wout : Nat} (hl : table.length = wout)
    (hrange : ∀ t ∈ table, 1 ≤ t ∧ t ≤ win) (v : BitVec win) : perm table wout (~~~v) = ~~~perm table wout v := by
  apply eq_of_desBit_eq
  intro n hn hw
  have hlt : n - 1 < table.length := by omega
  obtain ⟨hlo, hhi⟩ := hrange _ (List.getElem_mem hlt)
  rw [desBit_not _ hn hw, perm_desBit table _ hl hn hw, perm_desBit table _ hl hn hw, List.getD_eq_getElem _ _ hlt,
    desBit_not _ hlo hhi]

theorem permIp_not (b : Word) : permIp (~~~b) = ~~~permIp b := perm_not ipTable_length ipTable_range b

theorem permFp_not (b : Word) : permFp (~~~b) = ~~~permFp b := perm_not fpTable_length fpTable_range b

theorem permE_not (r : Half) : permE (~~~r) = ~~~permE r := perm_not rfl (by decide) r

theorem permPc1_not (key : Word) : permPc1 (~~~key) = ~~~permPc1 key := perm_not rfl (by decide) key

theorem permPc2_not (cd : KeyState) : permPc2 (~~~cd) = ~~~permPc2 cd := perm_not rfl (by decide) cd

theorem leftHalf_not (b : Word) : leftHalf (~~~b) = ~~~leftHalf b := by
  rw [← leftHalf_append_rightHalf b, BitVec.not_append, leftHalf_append, leftHalf_append]

theorem rightHalf_not (b : Word) : rightHalf (~~~b) = ~~~rightHalf b := by
  rw [← leftHalf_append_rightHalf b, BitVec.not_append, rightHalf_append, rightHalf_append]

theorem keyLeft_not (cd : KeyState) : keyLeft (~~~cd) = ~~~keyLeft cd := by
  rw [← keyLeft_append_keyRight cd, BitVec.not_append, keyLeft_append, keyLeft_append]

theorem keyRight_not (cd : KeyState) : keyRight (~~~cd) = ~~~keyRight cd := by
  rw [← keyLeft_append_keyRight cd, BitVec.not_append, keyRight_append, keyRight_append]

/-! ### Complements through the key schedule -/

theorem rotl28_not (x : KeyHalf) {s : Nat} (hs : s ≤ 28) : rotl28 (~~~x) s = ~~~rotl28 x s := by
  apply eq_of_desBit_eq
  intro n hn hw
  rw [desBit_not _ hn hw, rotl28_desBit _ hs hn hw, rotl28_desBit _ hs hn hw,
    desBit_not _ (by split <;> omega) (by split <;> omega)]

/-- PC-1, the rotations and PC-2 move bits and combine none. -/
theorem roundKey_not (key : Word) (i : Fin 16) : roundKey (~~~key) i = ~~~roundKey key i := by
  have hle := totalShift_le (i.val + 1)
  rw [roundKey_eq, roundKey_eq, permPc1_not, keyLeft_not, keyRight_not, rotl28_not _ hle, rotl28_not _ hle,
    ← BitVec.not_append, permPc2_not]

/-- The complemented key has the complemented subkeys. -/
theorem keySchedule_not (key : Word) : keySchedule (~~~key) = (keySchedule key).map (~~~·) := by
  rw [keySchedule, keySchedule, Vector.map_ofFn]
  exact congrArg Vector.ofFn (funext (roundKey_not key))

/-! ### Complements through the rounds (R217) -/

/-- The two complements meet in `E(R) ⊕ K` and cancel there, before the substitution. -/
theorem feistel_not (r : Half) (k : Subkey) : feistel (~~~r) (~~~k) = feistel r k := by
  have hcancel : permE (~~~r) ^^^ ~~~k = permE r ^^^ k := by
    rw [permE_not, ← BitVec.not_xor_left, ← BitVec.not_xor_right, BitVec.not_not]
  rw [feistel, feistel, hcancel]

/-- Both halves of a pair complemented. -/
def complementHalves (lr : Half × Half) : Half × Half := (~~~lr.1, ~~~lr.2)

/-- A round carries the complement of its halves through, as the round function keeps its value (R212). -/
theorem feistelRound_complement (lr : Half × Half) (k : Subkey) :
    feistelRound (complementHalves lr) (~~~k) = complementHalves (feistelRound lr k) := by
  simp only [feistelRound, complementHalves, feistel_not, BitVec.not_xor_left]

theorem rounds_not (b : Word) (ks : List Subkey) : rounds (~~~b) (ks.map (~~~·)) = ~~~rounds b ks := by
  have hfold : (ks.map (~~~·)).foldl feistelRound (complementHalves (leftHalf b, rightHalf b)) =
      complementHalves (ks.foldl feistelRound (leftHalf b, rightHalf b)) := by
    rw [List.foldl_map]
    exact List.foldl_hom complementHalves feistelRound_complement
  have hstart : (leftHalf (~~~b), rightHalf (~~~b)) = complementHalves (leftHalf b, rightHalf b) := by
    rw [leftHalf_not, rightHalf_not, complementHalves]
  simp only [rounds, hstart, hfold]
  exact BitVec.not_append.symm

/-- Settles O30: the subkeys, IP, the rounds and FP each carry the complement through. -/
theorem complementationLaw : Obligations.ComplementationLaw := by
  intro k b
  rw [encryptBlock, encryptBlock, keySchedule_not, Vector.toList_map, permIp_not, rounds_not, permFp_not]

/-! ### Parity bits of the key (R218) -/

/-- Settles O31: PC-1 skips the parity bits, so the schedule is the same. -/
theorem parityBitsChangeNoBlock : Obligations.ParityBitsChangeNoBlock := by
  intro k m b hm
  have hschedule : keySchedule (k ^^^ m) = keySchedule k := keySchedule_congr (permPc1_xor_parity k hm)
  rw [hschedule]
  exact ⟨rfl, rfl⟩

end Sys2Proof.Machine
end

section
/-! The padding scheme of the driver: what `pad` appends (R265), what `unpad` takes away (R266), and that the marker `pad`
writes is the one `unpad` finds (R267). -/

namespace Sys2Proof.Machine

/-- `unpad` takes away the last 0 and the 1s after it (R266). -/
theorem unpad_marker (b : Bits) (n : Nat) : unpad (b ++ false :: List.replicate n true) = .ok b := by
  have hones : ∀ x ∈ List.replicate n true, x = true := fun x hx => List.eq_of_mem_replicate hx
  have hrev : (b ++ false :: List.replicate n true).reverse = List.replicate n true ++ false :: b.reverse := by simp
  rw [unpad, hrev, List.dropWhile_append_of_pos hones, List.dropWhile_cons_of_neg (by decide)]
  simp

theorem unpad_ones {b : Bits} (h : ∀ x ∈ b, x = true) : unpad b = .error .noPadMarker := by
  have hdrop : b.reverse.dropWhile (fun x => x) = [] :=
    List.dropWhile_eq_nil_iff.2 fun x hx => h x (List.mem_reverse.1 hx)
  rw [unpad, hdrop]

/-- `unpad` has one fault (R266). -/
theorem unpad_error {b : Bits} {e : DriverFault} (h : unpad b = .error e) : e = .noPadMarker := by
  unfold unpad at h
  split at h
  · exact (Except.error.inj h).symm
  · cases h

/-- A sequence cut at its last 0. -/
theorem eq_take_append_marker {b : Bits} {j : Nat} (hj : j < b.length) (hzero : b.getD j true = false)
    (hones : ∀ k, j < k → b.getD k true = true) : b = b.take j ++ false :: List.replicate (b.length - (j + 1)) true := by
  have hmarker : b[j] = false := by rwa [List.getD_eq_getElem _ _ hj] at hzero
  have hrest : b.drop (j + 1) = List.replicate (b.length - (j + 1)) true := by
    refine List.eq_replicate_iff.2 ⟨List.length_drop, fun x hx => ?_⟩
    obtain ⟨i, hi, rfl⟩ := List.mem_iff_getElem.1 hx
    rw [List.length_drop] at hi
    rw [List.getElem_drop, ← List.getD_eq_getElem b true (by omega)]
    exact hones _ (by omega)
  calc
    b = b.take j ++ b.drop j := (List.take_append_drop j b).symm
    _ = b.take j ++ false :: List.replicate (b.length - (j + 1)) true := by
      rw [List.drop_eq_getElem_cons hj, hmarker, hrest]

theorem pad_eq (b : Bits) :
    pad b = b ++ false :: List.replicate (64 * (b.length / 64 + 1) - b.length - 1) true := by
  simp [pad]

theorem pad_length (b : Bits) : (pad b).length = 64 * (b.length / 64 + 1) := by
  rw [pad_eq, List.length_append, List.length_cons, List.length_replicate]
  omega

/-- `pad` ends on a block boundary, so the driver's blocks cover it (R265, R269). -/
theorem pad_length_mod (b : Bits) : (pad b).length % 64 = 0 := by
  rw [pad_length, Nat.mul_mod_right]

/-- The marker `pad` appends is the last 0. -/
theorem unpad_pad (b : Bits) : unpad (pad b) = .ok b := by
  rw [pad_eq, unpad_marker]

/-- Settles O53: the length is the next multiple of 64 above the length of `b`. -/
theorem padFillsToTheNextBlock : Obligations.PadFillsToTheNextBlock := by
  intro b
  refine ⟨⟨_, rfl⟩, pad_length_mod b, ?_, ?_⟩ <;> rw [pad_length] <;> omega

/-- Settles O54: no 0 leaves nothing to cut at, and a sequence cut at its last 0 has the form `unpad_marker` takes apart. -/
theorem unpadTruncatesAtTheLastZero : Obligations.UnpadTruncatesAtTheLastZero := by
  refine fun b => ⟨unpad_ones, fun j hj hzero hones => ?_⟩
  conv_lhs => rw [eq_take_append_marker hj hzero hones]
  exact unpad_marker _ _

/-- Settles O55. -/
theorem unpadInvertsPad : Obligations.UnpadInvertsPad := unpad_pad

end Sys2Proof.Machine
end

section
/-! The driver's conversions undone: bits and registers (R260), bits and bytes (R261, R262), UTF-8 (R262), and hex (R263,
R264). -/

namespace Sys2Proof.Machine

/-! ### Bits, registers and bytes -/

/-- Shifting `w` bits in, first bit first, leaves the first of them on top (R260): a bit sequence is a table that picks from
the one-bit value 1, so `perm_getLsbD` tells its bits. -/
theorem foldl_shiftConcat_bits {b : Bits} {w : Nat} (hl : b.length = w) {i : Nat} (hi : i < w) :
    (b.foldl (fun acc x => acc.shiftConcat x) 0#w).getLsbD i = b.getD (w - 1 - i) false := by
  have hbit : ∀ x : Bool, desBit (1#1) x.toNat = x := by decide
  have hfold : b.foldl (fun acc x => acc.shiftConcat x) 0#w = perm (b.map Bool.toNat) w 1#1 := by
    simp only [perm, List.foldl_map, hbit]
  have hget : (b.map Bool.toNat).getD (w - 1 - i) 0 = (b.getD (w - 1 - i) false).toNat :=
    List.getD_map b false Bool.toNat
  rw [hfold, perm_getLsbD _ _ (by rw [List.length_map, hl]) i hi, hget, hbit]

@[simp] theorem bits64_length (w : Word) : (bits64 w).length = 64 := rfl

@[simp] theorem valueOfBits_bits64 (w : Word) : valueOfBits (bits64 w) = w := by
  apply BitVec.eq_of_getLsbD_eq
  intro i hi
  have hpos : 63 - (63 - i) = i := by omega
  rw [valueOfBits, foldl_shiftConcat_bits (bits64_length w) hi, List.getD_eq_getElem _ _ (by rw [bits64_length]; omega)]
  simp [bits64, hpos]

theorem bits64_valueOfBits {b : Bits} (hl : b.length = 64) : bits64 (valueOfBits b) = b := by
  apply List.ext_getElem (by rw [bits64_length, hl])
  intro i hi hi'
  have hpos : 64 - 1 - (63 - i) = i := by omega
  have hbit : (valueOfBits b).getLsbD (63 - i) = b[i] := by
    rw [valueOfBits, foldl_shiftConcat_bits hl (by omega), hpos, List.getD_eq_getElem _ _ hi']
  simpa [bits64] using hbit

@[simp] theorem byteOfBits_bits8 (u : Byte) : byteOfBits (bits8 u) = u := by
  have hlen : (bits8 u).length = 8 := rfl
  apply BitVec.eq_of_getLsbD_eq
  intro i hi
  have hpos : 7 - (7 - i) = i := by omega
  rw [byteOfBits, foldl_shiftConcat_bits hlen hi, List.getD_eq_getElem _ _ (by omega)]
  simp [bits8, hpos]

/-- `bytesOfBits` takes eight bits off at a time. -/
theorem bytesOfBits_bits8_append (u : Byte) (rest : Bits) :
    bytesOfBits (bits8 u ++ rest) = (bytesOfBits rest).map (u :: ·) := by
  have hbyte : bytesOfBits (bits8 u ++ rest) = (bytesOfBits rest).map (byteOfBits (bits8 u) :: ·) := by
    change bytesOfBits (_ :: _ :: _ :: _ :: _ :: _ :: _ :: _ :: rest) = _
    rw [bytesOfBits]
    cases bytesOfBits rest <;> rfl
  rw [hbyte, byteOfBits_bits8]

theorem bytesOfBits_flatMap_bits8 (l : List Byte) : bytesOfBits (l.flatMap bits8) = some l := by
  induction l with
  | nil => rfl
  | cons u l ih => rw [List.flatMap_cons, bytesOfBits_bits8_append, ih, Option.map_some]

/-! ### UTF-8 -/

/-- Below 256 a number fits its byte. -/
theorem byte_toNat {n : Nat} (h : n < 0x100) : (BitVec.ofNat 8 n).toNat = n := Nat.mod_eq_of_lt h

/-- The continuation byte with payload `x`. -/
theorem continuation_ofNat {x : Nat} (hx : x < 0x40) : continuation (BitVec.ofNat 8 (0x80 + x)) = some x := by
  rw [continuation, byte_toNat (by omega), if_pos (by omega), Nat.add_sub_cancel_left]

/-- The continuation byte that carries six bits of `n`. -/
theorem continuation_mod (n : Nat) : continuation (BitVec.ofNat 8 (0x80 + n % 0x40)) = some (n % 0x40) :=
  continuation_ofNat (Nat.mod_lt n (by decide))

/-- A character's own number is a scalar value; where it is large enough for its form, the form is not overlong. -/
theorem scalar_toNat {least n : Nat} {c : Char} (hn : n = c.toNat) (h : least ≤ c.toNat) : scalar least n = some c := by
  have hvalid : n.isValidChar := hn ▸ c.valid
  subst hn
  rw [scalar, dif_pos hvalid, if_pos h]
  rfl

theorem char_toNat_lt (c : Char) : c.toNat < 0x110000 := by
  have hvalid : c.toNat.isValidChar := c.valid
  unfold Nat.isValidChar at hvalid
  omega

section utf8DecodeFuel
variable {b : Byte} (c d e : Byte) (fuel : Nat) (rest : List Byte)

theorem utf8DecodeFuel_one (h : b.toNat < 0x80) :
    utf8DecodeFuel (fuel + 1) (b :: rest) = consChar (scalar 0 b.toNat) (utf8DecodeFuel fuel rest) := by
  simp only [utf8DecodeFuel, h, if_true]

theorem utf8DecodeFuel_two (hlo : 0xC0 ≤ b.toNat) (hhi : b.toNat < 0xE0) :
    utf8DecodeFuel (fuel + 1) (b :: c :: rest) = consChar (scalar2 b c) (utf8DecodeFuel fuel rest) := by
  rw [utf8DecodeFuel, if_neg (by omega), if_neg (by omega), if_pos hhi]

theorem utf8DecodeFuel_three (hlo : 0xE0 ≤ b.toNat) (hhi : b.toNat < 0xF0) :
    utf8DecodeFuel (fuel + 1) (b :: c :: d :: rest) = consChar (scalar3 b c d) (utf8DecodeFuel fuel rest) := by
  rw [utf8DecodeFuel, if_neg (by omega), if_neg (by omega), if_neg (by omega), if_pos hhi]

theorem utf8DecodeFuel_four (hlo : 0xF0 ≤ b.toNat) (hhi : b.toNat < 0xF8) :
    utf8DecodeFuel (fuel + 1) (b :: c :: d :: e :: rest) = consChar (scalar4 b c d e) (utf8DecodeFuel fuel rest) := by
  rw [utf8DecodeFuel, if_neg (by omega), if_neg (by omega), if_neg (by omega), if_neg (by omega), if_pos hhi]

end utf8DecodeFuel

/-- One character decoded, whatever follows it: the first byte tells how many bytes the character has, and each of them
carries its share of the number. -/
theorem utf8DecodeFuel_utf8OfChar_append (fuel : Nat) (c : Char) (rest : List Byte) :
    utf8DecodeFuel (fuel + 1) (utf8OfChar c ++ rest) = consChar (some c) (utf8DecodeFuel fuel rest) := by
  have hmax := char_toNat_lt c
  simp only [utf8OfChar]
  split
  case isTrue hone =>
    have hfirst := byte_toNat (n := c.toNat) (by omega)
    refine (utf8DecodeFuel_one _ _ (by omega)).trans (congrArg (consChar · _) ?_)
    exact scalar_toNat hfirst (Nat.zero_le _)
  split
  case isTrue hmin htwo =>
    have hfirst := byte_toNat (n := 0xC0 + c.toNat / 0x40) (by omega)
    refine (utf8DecodeFuel_two _ _ _ (by omega) (by omega)).trans (congrArg (consChar · _) ?_)
    simp only [scalar2, continuation_mod, hfirst]
    exact scalar_toNat (by omega) (by omega)
  split
  case isTrue hmin hthree =>
    have hfirst := byte_toNat (n := 0xE0 + c.toNat / 0x1000) (by omega)
    refine (utf8DecodeFuel_three _ _ _ _ (by omega) (by omega)).trans (congrArg (consChar · _) ?_)
    simp only [scalar3, continuation_mod, hfirst]
    exact scalar_toNat (by omega) (by omega)
  case isFalse hmin =>
    have hfirst := byte_toNat (n := 0xF0 + c.toNat / 0x40000) (by omega)
    refine (utf8DecodeFuel_four _ _ _ _ _ (by omega) (by omega)).trans (congrArg (consChar · _) ?_)
    simp only [scalar4, continuation_mod, hfirst]
    exact scalar_toNat (by omega) (by omega)

theorem utf8OfChar_length_pos (c : Char) : 0 < (utf8OfChar c).length := by
  simp only [utf8OfChar]
  split_ifs <;> simp

/-- Each character takes one unit of fuel and has at least one byte. -/
theorem utf8DecodeFuel_utf8Encode (t : Text) :
    ∀ fuel, (utf8Encode t).length ≤ fuel → utf8DecodeFuel fuel (utf8Encode t) = some t := by
  induction t with
  | nil => intro fuel _; simp [utf8Encode, utf8DecodeFuel]
  | cons c t ih =>
    intro fuel hfuel
    have hsplit : utf8Encode (c :: t) = utf8OfChar c ++ utf8Encode t := List.flatMap_cons
    have hpos := utf8OfChar_length_pos c
    rw [hsplit, List.length_append] at hfuel
    obtain ⟨fuel, rfl⟩ : ∃ n, fuel = n + 1 := ⟨fuel - 1, by omega⟩
    rw [hsplit, utf8DecodeFuel_utf8OfChar_append, ih fuel (by omega)]
    rfl

theorem utf8Decode_utf8Encode (t : Text) : utf8Decode (utf8Encode t) = some t :=
  utf8DecodeFuel_utf8Encode t _ le_rfl

/-- Every text has bits, and they are read back as that text (R261, R262). -/
theorem bitsToText_textToBits (t : Text) : bitsToText (textToBits t) = .ok t := by
  simp only [bitsToText, textToBits, bytesOfBits_flatMap_bits8, utf8Decode_utf8Encode]

/-- `bits_to_text` has one fault (R262). -/
theorem bitsToText_error {b : Bits} {e : DriverFault} (h : bitsToText b = .error e) : e = .decodeError := by
  unfold bitsToText at h
  split at h
  · exact (Except.error.inj h).symm
  split at h
  · exact (Except.error.inj h).symm
  · cases h

/-! ### Hexadecimal -/

/-- A digit `bits_to_hex` writes is a digit `hex_to_bits` reads (R263, R264). -/
theorem hexValue_hexDigit : ∀ n, n < 16 → hexValue (hexDigit n) = some n := by decide

/-- The digit of four bits, read back. -/
theorem hexToBits_hexDigit_cons (a b c d : Bool) {h : Text} {bits : Bits} (hrest : hexToBits h = .ok bits) :
    hexToBits (hexDigit (a.toNat * 8 + b.toNat * 4 + c.toNat * 2 + d.toNat) :: h) = .ok (a :: b :: c :: d :: bits) := by
  have hlt : a.toNat * 8 + b.toNat * 4 + c.toNat * 2 + d.toNat < 16 := by revert a b c d; decide
  have hbits : bits4 (a.toNat * 8 + b.toNat * 4 + c.toNat * 2 + d.toNat) = [a, b, c, d] := by revert a b c d; decide
  rw [hexToBits, hexValue_hexDigit _ hlt, hrest]
  simp only [hbits, List.cons_append, List.nil_append]

theorem hexToBits_bitsToHex (b : Bits) (hl : b.length % 4 = 0) : hexToBits (bitsToHex b) = .ok b := by
  induction b using bitsToHex.induct with
  | case1 a b c d rest ih =>
    simp only [List.length_cons] at hl
    exact hexToBits_hexDigit_cons a b c d (ih (by omega))
  | case2 b hshort =>
    match b with
    | [] => rfl
    | [_] | [_, _] | [_, _, _] => simp at hl
    | a :: b :: c :: d :: rest => exact absurd rfl (hshort a b c d rest)

/-- `hex_to_bits` has one fault (R264). -/
theorem hexToBits_error {h : Text} {e : DriverFault} (he : hexToBits h = .error e) : e = .decodeError := by
  unfold hexToBits at he
  split at he
  · cases he
  split at he
  · cases he
  · exact (Except.error.inj he).symm

end Sys2Proof.Machine
end

section
/-! The ECB driver: what `encrypt` and `decrypt` answer on an idle machine (R269, R270), their faults in order (R271), and
the message given back (R273). -/

namespace Sys2Proof.Machine

/-! ### A bit sequence block by block -/

@[simp] theorem blocksOfBits_length (n : Nat) (b : Bits) : (blocksOfBits n b).length = n := by
  induction n generalizing b with
  | zero => rfl
  | succ n ih => rw [blocksOfBits, List.length_cons, ih]

theorem blocksOfBits_flatMap_bits64 (ws : List Word) : blocksOfBits ws.length (ws.flatMap bits64) = ws := by
  induction ws with
  | nil => rfl
  | cons w ws ih =>
    rw [List.flatMap_cons, List.length_cons, blocksOfBits, List.take_left' (bits64_length w),
      List.drop_left' (bits64_length w), valueOfBits_bits64, ih]

theorem flatMap_bits64_blocksOfBits {n : Nat} {b : Bits} (hl : b.length = 64 * n) :
    (blocksOfBits n b).flatMap bits64 = b := by
  induction n generalizing b with
  | zero => exact (List.length_eq_zero_iff.1 hl).symm
  | succ n ih =>
    have hhead : (b.take 64).length = 64 := by rw [List.length_take]; omega
    have htail : (b.drop 64).length = 64 * n := by rw [List.length_drop]; omega
    rw [blocksOfBits, List.flatMap_cons, bits64_valueOfBits hhead, ih htail, List.take_append_drop]

theorem flatMap_bits64_length (ws : List Word) : (ws.flatMap bits64).length = 64 * ws.length := by
  induction ws with
  | nil => rfl
  | cons w ws ih => rw [List.flatMap_cons, List.length_append, bits64_length, ih, List.length_cons]; ring

/-- The bits of a sequence after `f` on each of its 64-bit blocks, in order (R269, R270, R272). -/
def mapBlocks (f : Word → Word) (b : Bits) : Bits :=
  (blocksOfBits (b.length / 64) b).flatMap fun x => bits64 (f x)

theorem mapBlocks_eq (f : Word → Word) (b : Bits) :
    mapBlocks f b = ((blocksOfBits (b.length / 64) b).map f).flatMap bits64 := (List.flatMap_map ..).symm

theorem mapBlocks_length (f : Word → Word) (b : Bits) : (mapBlocks f b).length = 64 * (b.length / 64) := by
  rw [mapBlocks_eq, flatMap_bits64_length, List.length_map, blocksOfBits_length]

/-- The blocks of the result are the results of the blocks. -/
theorem blocksOfBits_mapBlocks (f : Word → Word) (b : Bits) :
    blocksOfBits ((mapBlocks f b).length / 64) (mapBlocks f b) = (blocksOfBits (b.length / 64) b).map f := by
  have hn : (mapBlocks f b).length / 64 = ((blocksOfBits (b.length / 64) b).map f).length := by
    rw [mapBlocks_length, List.length_map, blocksOfBits_length, Nat.mul_div_cancel_left _ (by decide)]
  rw [hn, mapBlocks_eq, blocksOfBits_flatMap_bits64]

/-- Block by block, `g` undoes `f` on whole blocks where it does on each block. -/
theorem mapBlocks_cancel {f g : Word → Word} (h : ∀ x, g (f x) = x) {b : Bits} (hl : b.length % 64 = 0) :
    mapBlocks g (mapBlocks f b) = b := by
  have hid : (blocksOfBits (b.length / 64) b).map (g ∘ f) = blocksOfBits (b.length / 64) b :=
    List.map_id'' h _
  rw [mapBlocks_eq g, blocksOfBits_mapBlocks, List.map_map, hid, flatMap_bits64_blocksOfBits (by omega)]

/-! ### The driver's block commands -/

/-- The machine between two blocks of a driver call: idle, with the schedule `sk` loaded. -/
def Ready (sk : Vector Subkey 16) (s : State) : Prop := Idle s ∧ s.keyValid = true ∧ s.sk = sk

theorem driverSetKey_ready {s : State} (h : Idle s) (k : Word) :
    ∃ t, driverSetKey k s = (.ok (), t) ∧ Ready (keySchedule k) t := by
  obtain ⟨t, hrun, hidle, -, hvalid, hsk⟩ := driverSetKey_schedule h k
  exact ⟨t, hrun, hidle, hvalid, hsk⟩

/-- `i` is a command with a word that writes `f` of the schedule and the captured DIN to DOUT, as ENC and DEC do (R220,
R221). -/
def IsBlockCommand (i : Instr) (f : Vector Subkey 16 → Word → Word) : Prop :=
  i.wellFormed = true ∧ decode (encode i) = .ok i ∧ ∀ c s, effect i c s = setDout (f s.sk c.din) s

theorem isBlockCommand_enc : IsBlockCommand .enc encryptBlock := ⟨rfl, by decide, fun _ _ => rfl⟩

theorem isBlockCommand_dec : IsBlockCommand .dec decryptBlock := ⟨rfl, by decide, fun _ _ => rfl⟩

section driverBlocks
variable {i : Instr} {f : Vector Subkey 16 → Word → Word} {sk : Vector Subkey 16} {s : State}

theorem driverBlock_ready (hi : IsBlockCommand i f) (hs : Ready sk s) (b : Word) :
    ∃ t, driverBlock i b s = (.ok (f sk b), t) ∧ Ready sk t := by
  obtain ⟨hword, hdecode, heffect⟩ := hi
  obtain ⟨⟨hbusy, hinflight⟩, hvalid, rfl⟩ := hs
  have hwrite : driverWrite .din b s = (.ok (), { s with din := b }) :=
    driverWrite_idle hinflight (hostWrite_din b hbusy)
  have hrun : driverRun i { s with din := b } = (.ok (), afterRun i { s with din := b }) :=
    driverRun_accepted hword hbusy hinflight (fun _ => hvalid) hdecode
  refine ⟨driverRead .dout (afterRun i { s with din := b }), ?_, ?_⟩
  · simp [driverBlock, hwrite, hrun, driverRead, hostRead, afterRun, lastPoll, heffect]
  · simp [Ready, Idle, driverRead, afterRun, lastPoll, heffect, hvalid]

theorem driverBlocks_ready (hi : IsBlockCommand i f) (hs : Ready sk s) (bs : List Word) :
    ∃ t, driverBlocks i bs s = (.ok (bs.map (f sk)), t) := by
  induction bs generalizing s with
  | nil => exact ⟨s, rfl⟩
  | cons b bs ih =>
    obtain ⟨t, hblock, ht⟩ := driverBlock_ready hi hs b
    obtain ⟨u, hrest⟩ := ih ht
    exact ⟨u, by rw [driverBlocks, hblock]; simp only [hrest, List.map_cons]⟩

end driverBlocks

/-! ### `encrypt` and `decrypt` -/

/-- The schedule of a key text (R268). -/
def textSchedule (k : Text) : Vector Subkey 16 := keySchedule (valueOfBits (textToBits k))

section calls
variable {m c k : Text} {s : State}

theorem encrypt_invalidKey (hk : (textToBits k).length ≠ 64) :
    encrypt m k s = (.error (.fault .invalidKeyLength), s) := if_pos hk

theorem decrypt_invalidKey (hk : (textToBits k).length ≠ 64) :
    decrypt c k s = (.error (.fault .invalidKeyLength), s) := if_pos hk

/-- `encrypt` with a key of 8 bytes (R269). -/
theorem encrypt_idle (hs : Idle s) (hk : (textToBits k).length = 64) :
    (encrypt m k s).1 = .ok (bitsToHex (mapBlocks (encryptBlock (textSchedule k)) (pad (textToBits m)))) := by
  obtain ⟨t, hset, ht⟩ := driverSetKey_ready hs (valueOfBits (textToBits k))
  obtain ⟨u, hblocks⟩ := driverBlocks_ready isBlockCommand_enc ht
    (blocksOfBits ((pad (textToBits m)).length / 64) (pad (textToBits m)))
  rw [mapBlocks_eq]
  simp only [encrypt, hk, hset, hblocks]
  rfl

theorem decrypt_notHex {e : DriverFault} (hk : (textToBits k).length = 64) (hc : hexToBits c = .error e) :
    decrypt c k s = (.error (.fault .decodeError), s) := by
  obtain rfl := hexToBits_error hc
  simp [decrypt, hk, hc]

theorem decrypt_invalidWidth {b : Bits} (hk : (textToBits k).length = 64) (hc : hexToBits c = .ok b)
    (hb : b.length % 64 ≠ 0) : decrypt c k s = (.error (.fault .invalidWidth), s) := by
  simp [decrypt, hk, hc, hb]

/-- `decrypt` of whole blocks in hex ends with `unpadToText` (R270). -/
theorem decrypt_idle {b : Bits} (hs : Idle s) (hk : (textToBits k).length = 64) (hc : hexToBits c = .ok b)
    (hb : b.length % 64 = 0) :
    (decrypt c k s).1 = (unpadToText (mapBlocks (decryptBlock (textSchedule k)) b)).mapError .fault := by
  obtain ⟨t, hset, ht⟩ := driverSetKey_ready hs (valueOfBits (textToBits k))
  obtain ⟨u, hblocks⟩ := driverBlocks_ready isBlockCommand_dec ht (blocksOfBits (b.length / 64) b)
  have hout : ((blocksOfBits (b.length / 64) b).map (decryptBlock (keySchedule (valueOfBits (textToBits k))))).flatMap
      bits64 = mapBlocks (decryptBlock (textSchedule k)) b := (mapBlocks_eq _ b).symm
  simp only [decrypt, hk, hc, hb, hset, hblocks, hout]
  cases unpadToText (mapBlocks (decryptBlock (textSchedule k)) b) <;> rfl

end calls

/-! ### The end of `decrypt` -/

theorem unpadToText_noMarker {p : Bits} {e : DriverFault} (hp : unpad p = .error e) :
    unpadToText p = .error .noPadMarker := by
  rw [unpadToText, hp, unpad_error hp]

theorem unpadToText_ok {p q : Bits} (hp : unpad p = .ok q) : unpadToText p = bitsToText q := by
  rw [unpadToText, hp]

theorem unpadToText_cases (p : Bits) :
    (∃ t, unpadToText p = .ok t) ∨ unpadToText p = .error .noPadMarker ∨ unpadToText p = .error .decodeError := by
  cases hp : unpad p with
  | error e => exact .inr (.inl (unpadToText_noMarker hp))
  | ok q =>
    rw [unpadToText_ok hp]
    cases hq : bitsToText q with
    | error e => exact .inr (.inr (congrArg _ (bitsToText_error hq)))
    | ok t => exact .inl ⟨t, rfl⟩

/-- Settles O59: a lemma per check, and after the last of them `decrypt_idle` leaves the cases of `unpadToText`. -/
theorem driverFaultOrder : Obligations.DriverFaultOrder := by
  intro m c k s hs
  refine ⟨fun hk => ⟨encrypt_invalidKey hk, decrypt_invalidKey hk⟩, fun hk => ⟨⟨_, encrypt_idle hs hk⟩,
    fun e hc => decrypt_notHex hk hc, fun b hc => ⟨decrypt_invalidWidth hk hc, ?_⟩⟩⟩
  intro hb p (hdecrypted : p = mapBlocks (decryptBlock (textSchedule k)) b)
  have hdecrypt := decrypt_idle hs hk hc hb
  rw [← hdecrypted] at hdecrypt
  refine ⟨fun e hp => ?_, fun q hp => ⟨fun e hq => ?_, fun t hq => ?_⟩⟩
  · rw [hdecrypt, unpadToText_noMarker hp]
    rfl
  · obtain rfl := bitsToText_error hq
    rw [hdecrypt, unpadToText_ok hp, hq]
    rfl
  · rw [hdecrypt, unpadToText_ok hp, hq]
    rfl

/-! ### The message given back -/

section roundTrip
variable {m k : Text} {s : State}

/-- What `encrypt` answers reads as whole blocks: ENCB of each block of the padded message. -/
theorem hexToBits_ciphertext (f : Word → Word) (m : Text) :
    hexToBits (bitsToHex (mapBlocks f (pad (textToBits m)))) = .ok (mapBlocks f (pad (textToBits m))) := by
  refine hexToBits_bitsToHex _ ?_
  rw [mapBlocks_length]
  omega

theorem decrypt_ciphertext (f : Word → Word) (hs : Idle s) (hk : (textToBits k).length = 64) :
    (decrypt (bitsToHex (mapBlocks f (pad (textToBits m)))) k s).1 =
      (unpadToText (mapBlocks (decryptBlock (textSchedule k)) (mapBlocks f (pad (textToBits m))))).mapError .fault := by
  refine decrypt_idle hs hk (hexToBits_ciphertext f m) ?_
  rw [mapBlocks_length, Nat.mul_mod_right]

/-- Every conversion is undone in turn: hex, the blocks, the padding, the text. -/
theorem decrypt_encrypt (hs : Idle s) (hk : (textToBits k).length = 64) :
    (decrypt (bitsToHex (mapBlocks (encryptBlock (textSchedule k)) (pad (textToBits m)))) k s).1 = .ok m := by
  rw [decrypt_ciphertext _ hs hk, mapBlocks_cancel (decryptBlock_encryptBlock (textSchedule k)) (pad_length_mod _),
    unpadToText_ok (unpad_pad _), bitsToText_textToBits]
  rfl

end roundTrip

/-- Settles O60: the same key undoes every block; under another key only the end of `decrypt` can fail, since the answer of
`encrypt` is hex of whole blocks. -/
theorem messageRoundTrip : Obligations.MessageRoundTrip := by
  intro m k s s' hs hs' hk
  refine ⟨_, encrypt_idle hs hk, decrypt_encrypt hs' hk, fun k' hk' => ?_⟩
  rw [decrypt_ciphertext _ hs' hk']
  generalize mapBlocks (decryptBlock (textSchedule k')) _ = p
  obtain ⟨t, ht⟩ | hmarker | hdecode := unpadToText_cases p
  · exact .inl ⟨t, by rw [ht]; rfl⟩
  · exact .inr (.inl (by rw [hmarker]; rfl))
  · exact .inr (.inr (by rw [hdecode]; rfl))

end Sys2Proof.Machine
end

section
/-! Errors of a host write (60_exceptions.md): which words the decoder rejects (R306, R307), what a write does while busy
(R305), and which code it leaves (R310). -/

namespace Sys2Proof

/-! ### The opcodes of each format -/

/-- The OPC values of format Z (R91, R93). -/
def zOpcodes : List (BitVec 8) := [0x00, 0x01, 0x02, 0x03, 0x10, 0x11, 0x20, 0x21, 0x22, 0x23, 0x24, 0x25, 0x26]

/-- The OPC values of format I (R91, R93). -/
def iOpcodes : List (BitVec 8) := [0x27, 0x30, 0x31, 0x32]

theorem opcodeOf_mem_zOpcodes (i : Instr) : opcodeOf i ∈ zOpcodes ↔ formatOf i = .z := by
  cases i <;> simp [opcodeOf, zOpcodes, formatOf]

theorem opcodeOf_mem_iOpcodes (i : Instr) : opcodeOf i ∈ iOpcodes ↔ formatOf i = .i := by
  cases i <;> simp [opcodeOf, iOpcodes, formatOf]

/-- The opcode map has a row for each OPC of the two formats and for no other. -/
theorem lookup_eq_none_iff (opc : BitVec 8) (idx : Nat) : lookup opc idx = none ↔ opc ∉ zOpcodes ++ iOpcodes := by
  constructor
  · intro h hmem
    have hrow : ∀ o ∈ zOpcodes ++ iOpcodes, lookup o idx ≠ none := by simp [zOpcodes, iOpcodes, lookup]
    exact hrow opc hmem h
  · intro hmem
    cases h : lookup opc idx with
    | none => rfl
    | some i =>
      obtain ⟨rfl, _⟩ := lookup_some h
      rw [List.mem_append, opcodeOf_mem_zOpcodes, opcodeOf_mem_iOpcodes] at hmem
      cases hf : formatOf i <;> simp [hf] at hmem

/-! ### What the decoder answers (R94) -/

/-- The decoder's three answers, each with the condition for it. -/
theorem decode_cases (w : Word) :
    (lookup (opcField w) (idxField w) = none ∧ decode w = .error .illegal) ∨
    (∃ i, lookup (opcField w) (idxField w) = some i ∧ reservedZero (formatOf i) w = false ∧ decode w = .error .reserved) ∨
    (∃ i, lookup (opcField w) (idxField w) = some i ∧ reservedZero (formatOf i) w = true ∧ decode w = .ok i) := by
  cases hl : lookup (opcField w) (idxField w) with
  | none => exact .inl ⟨rfl, by simp [decode, hl]⟩
  | some i =>
    cases hz : reservedZero (formatOf i) w with
    | false => exact .inr (.inl ⟨i, rfl, hz, by simp [decode, hl, hz]⟩)
    | true => exact .inr (.inr ⟨i, rfl, hz, by simp [decode, hl, hz]⟩)

theorem decode_illegal_iff (w : Word) : decode w = .error .illegal ↔ lookup (opcField w) (idxField w) = none := by
  obtain ⟨hl, hd⟩ | ⟨i, hl, _, hd⟩ | ⟨i, hl, _, hd⟩ := decode_cases w <;> simp [hl, hd]

theorem decode_reserved_iff (w : Word) :
    decode w = .error .reserved ↔
      ∃ i, lookup (opcField w) (idxField w) = some i ∧ reservedZero (formatOf i) w = false := by
  obtain ⟨hl, hd⟩ | ⟨i, hl, hz, hd⟩ | ⟨i, hl, hz, hd⟩ := decode_cases w
  · simp [hl, hd]
  · simp [hl, hz, hd]
  · simp [hl, hz, hd]

/-! ### The must-be-zero bits -/

/-- The bits from `n` upwards are zero where shifting them down leaves nothing. -/
theorem extractLsb'_top_eq_zero_iff (w : Word) {n len : Nat} (h : n + len = 64) :
    w.extractLsb' n len = 0 ↔ w >>> n = 0 := by
  have hlt : w.toNat >>> n < 2 ^ len := by
    rw [Nat.shiftRight_eq_div_pow]
    exact Nat.div_lt_of_lt_mul (by rw [← Nat.pow_add, h]; exact w.isLt)
  simp [BitVec.toNat_eq, Nat.mod_eq_of_lt hlt]

theorem reservedZero_z (w : Word) : reservedZero .z w = false ↔ w >>> 8 ≠ 0 := by
  rw [Ne, ← not_congr (extractLsb'_top_eq_zero_iff w (n := 8) (len := 56) rfl)]
  simp [reservedZero]

theorem reservedZero_i (w : Word) : reservedZero .i w = false ↔ w >>> 12 ≠ 0 := by
  rw [Ne, ← not_congr (extractLsb'_top_eq_zero_iff w (n := 12) (len := 52) rfl)]
  simp [reservedZero]

/-- RESERVED in terms of the word alone: the format's opcodes and its must-be-zero bits (R307). -/
theorem decode_reserved_iff_bits (w : Word) :
    decode w = .error .reserved ↔
      (opcField w ∈ zOpcodes ∧ w >>> 8 ≠ 0) ∨ (opcField w ∈ iOpcodes ∧ w >>> 12 ≠ 0) := by
  rw [decode_reserved_iff, ← reservedZero_z, ← reservedZero_i]
  cases hl : lookup (opcField w) (idxField w) with
  | none =>
    have hmem := (lookup_eq_none_iff _ _).1 hl
    rw [List.mem_append, not_or] at hmem
    simp [hmem]
  | some i =>
    rw [← (lookup_some hl).1, opcodeOf_mem_zOpcodes, opcodeOf_mem_iOpcodes]
    cases hf : formatOf i <;> simp [hf]

end Sys2Proof

namespace Sys2Proof.Machine

/-! ### The effect of a rejected and of a dropped write -/

/-- A CMD write of a word that does not decode is rejected with the decoder's code. -/
theorem hostWrite_cmd_error {w : Word} {c : ErrCode} {s : State} (hb : s.busy = false) (hd : decode w = .error c) :
    hostWrite .cmd w s = .next (reject c s) := by
  rw [hostWrite_cmd w hb, cmdWrite_error hd]

/-- Settles O3: the opcode map has no row exactly for the unassigned values, and the write is rejected. -/
theorem unassignedOpcodeIsIllegal : Obligations.UnassignedOpcodeIsIllegal :=
  ⟨fun w => (decode_illegal_iff w).trans (lookup_eq_none_iff _ _), fun _ _ hb hd => hostWrite_cmd_error hb hd⟩

/-- Settles O4: the must-be-zero bits of the format the opcode belongs to, and the write is rejected. -/
theorem reservedBitsAreRejected : Obligations.ReservedBitsAreRejected :=
  ⟨decode_reserved_iff_bits, fun _ _ hb hd => hostWrite_cmd_error hb hd⟩

/-- Settles O8: while busy a write to any slot is `drop`, and a read is a plain assignment to the host variable. -/
theorem writesWhileBusyAreDropped : Obligations.WritesWhileBusyAreDropped :=
  fun _ r hb => ⟨fun v => hostWrite_busy v r hb, fun _ => rfl⟩

/-! ### The code a write leaves (R310) -/

/-- A write to a slot other than CMD reports nothing while not busy. -/
theorem hostWrite_ne_cmd_err {r : Slot} (hr : r ≠ .cmd) (v : Word) {s : State} (hb : s.busy = false) :
    ∃ t, hostWrite r v s = .next t ∧ t.err = s.err := by
  cases r with
  | cmd => exact absurd rfl hr
  | key => exact ⟨_, hostWrite_key v hb, rfl⟩
  | din => exact ⟨_, hostWrite_din v hb, rfl⟩
  | dout | status | rsv5 | rsv6 | rsv7 => exact ⟨_, hostWrite_ignored v hb (by simp), rfl⟩

/-- A command issued with no error recorded reports NOKEY or nothing. -/
theorem issue_err (i : Instr) {s : State} (hb : s.busy = false) (he : s.err = 0) :
    (issue i s).err = if needsKey i && !s.keyValid then 3 else 0 := by
  obtain ⟨hb', _⟩ | ⟨_, hn, hv, hi⟩ | ⟨_, hk, hi⟩ := issue_cases i s
  · simp [hb] at hb'
  · simp [hi, hn, hv, he, ErrCode.code]
  · cases hn : needsKey i with
    | false => simp [hi, he]
    | true => simp [hi, he, hk hn]

/-- Settles O9: the write's own rule in each case, in the order BUSY, slot, opcode, reserved bits, key. -/
theorem firstErrorThatAppliesIsReported : Obligations.FirstErrorThatAppliesIsReported := by
  intro r w s he hidle
  cases hb : s.busy with
  | true => exact ⟨_, hostWrite_busy w r hb, by simp [he]⟩
  | false =>
    by_cases hr : r = .cmd
    · subst hr
      obtain ⟨hl, hd⟩ | ⟨i, hl, _, hd⟩ | ⟨i, hl, _, hd⟩ := decode_cases w
      · exact ⟨_, hostWrite_cmd_error hb hd, by simp [hl, he, ErrCode.code]⟩
      · exact ⟨_, hostWrite_cmd_error hb hd, by simp [hl, hd, he, ErrCode.code]⟩
      · refine ⟨issue i s, ?_, by simp [hl, hd, issue_err i hb he]⟩
        rw [hostWrite_cmd w hb, cmdWrite_ok hd (hidle hb)]
    · obtain ⟨t, ht, hterr⟩ := hostWrite_ne_cmd_err hr w hb
      exact ⟨t, ht, by simp [hr, hterr, he]⟩

end Sys2Proof.Machine
end

section
/-! Reset (70_reset_and_hazards.md section 1): the values R340 gives, and STATUS as a whole derived from its fields. -/

namespace Sys2Proof.Machine

/-- The row "STATUS (whole)" of R340 from the rows of its fields, by the layout of R36. -/
theorem hostRead_status_eq_zero {s : State} (hbusy : s.busy = false) (hdone : s.done = false)
    (hvalid : s.keyValid = false) (herr : s.err = 0) : hostRead .status s = 0 := by
  calc
    hostRead .status s = BitVec.ofNat 64 (s.busy.toNat + 2 * s.done.toNat + 4 * s.keyValid.toNat + 16 * s.err.toNat) :=
      statusWord_eq s
    _ = 0 := by simp [hbusy, hdone, hvalid, herr]

/-- Settles O42: each field by the definition of the reset state, STATUS as a whole from its fields. -/
theorem resetValues : Obligations.ResetValues :=
  have hstatus : hostRead .status State.reset = 0 := hostRead_status_eq_zero rfl rfl rfl rfl
  ⟨rfl, rfl, rfl, rfl, rfl, rfl, rfl, rfl, hstatus, rfl⟩

end Sys2Proof.Machine
end

section
/-! The command word both ways: decoding undoes encoding and encoding undoes decoding (R91, R94, R101), and what has no
word. -/

namespace Sys2Proof

/-! ### The word of a command, decoded -/

/-- The family `FieldsOfWord` as one statement about every command. -/
theorem fieldsOfWord (i : Instr) : Laws.FieldsOfWord.Statement i := by
  cases i with
  | nop => exact Laws.FieldsOfWord.nop
  | keyload => exact Laws.FieldsOfWord.keyload
  | keyclr => exact Laws.FieldsOfWord.keyclr
  | clrerr => exact Laws.FieldsOfWord.clrerr
  | enc => exact Laws.FieldsOfWord.enc
  | dec => exact Laws.FieldsOfWord.dec
  | permIp => exact Laws.FieldsOfWord.permIp
  | permFp => exact Laws.FieldsOfWord.permFp
  | permE => exact Laws.FieldsOfWord.permE
  | permP => exact Laws.FieldsOfWord.permP
  | permPc1 => exact Laws.FieldsOfWord.permPc1
  | permPc2 => exact Laws.FieldsOfWord.permPc2
  | sbox => exact Laws.FieldsOfWord.sbox
  | ksrot idx => exact Laws.FieldsOfWord.ksrot idx
  | ffunc idx => exact Laws.FieldsOfWord.ffunc idx
  | round idx => exact Laws.FieldsOfWord.round idx
  | skread idx => exact Laws.FieldsOfWord.skread idx

/-- Each command is its own opcode's row of the opcode map (R93). -/
theorem lookup_opcodeOf (i : Instr) : lookup (opcodeOf i) (indexOf i) = some i := by
  cases i <;> rfl

/-- The decoder reads the command's own opcode and index off its word and finds its reserved bits zero. -/
theorem decode_encode {i : Instr} (h : i.wellFormed = true) : decode (encode i) = .ok i := by
  obtain ⟨hopc, hidx, hzero⟩ := fieldsOfWord i h
  simp [decode, hopc, hidx, lookup_opcodeOf, hzero]

/-- Settles O1: the fields of the word, looked up in the opcode map. -/
theorem decodeOfEncodeIsTheCommand : Obligations.DecodeOfEncodeIsTheCommand := fun _ => decode_encode

/-! ### A decoded word, encoded -/

theorem opcField_toNat (w : Word) : (opcField w).toNat = w.toNat % 256 := by
  simp [opcField]

theorem idxField_eq (w : Word) : idxField w = w.toNat / 256 % 16 := by
  simp [idxField, Nat.shiftRight_eq_div_pow]

theorem toNat_lt_of_ushiftRight_eq_zero {w : Word} {n : Nat} (h : w >>> n = 0) : w.toNat < 2 ^ n := by
  have hdiv := congrArg BitVec.toNat h
  rw [BitVec.toNat_ushiftRight, Nat.shiftRight_eq_div_pow] at hdiv
  exact (Nat.div_eq_zero_iff_lt (Nat.two_pow_pos n)).1 hdiv

/-- With its must-be-zero bits zero, a format-Z word is its opcode alone (R91). -/
theorem toNat_lt_of_reservedZero_z {w : Word} (h : reservedZero .z w = true) : w.toNat < 2 ^ 8 :=
  toNat_lt_of_ushiftRight_eq_zero (not_not.1 ((reservedZero_z w).not.1 (by simp [h])))

/-- With its must-be-zero bits zero, a format-I word is its opcode and its index (R91). -/
theorem toNat_lt_of_reservedZero_i {w : Word} (h : reservedZero .i w = true) : w.toNat < 2 ^ 12 :=
  toNat_lt_of_ushiftRight_eq_zero (not_not.1 ((reservedZero_i w).not.1 (by simp [h])))

/-- The word below its format's bound is its opcode and its index, the two fields `encode` puts together. -/
theorem encode_of_decode {w : Word} {i : Instr} (h : decode w = .ok i) : encode i = w := by
  obtain ⟨hlookup, hzero⟩ := decode_ok h
  obtain ⟨hopc, hidx, hnoidx⟩ := lookup_some hlookup
  apply BitVec.eq_of_toNat_eq
  rw [encode_toNat, hopc, opcField_toNat]
  cases hf : formatOf i with
  | z =>
    have hlt := toNat_lt_of_reservedZero_z (hf ▸ hzero)
    rw [hnoidx hf]
    omega
  | i =>
    have hlt := toNat_lt_of_reservedZero_i (hf ▸ hzero)
    rw [hidx hf, idxField_eq]
    omega

/-- Settles O2: the decoder's index is below 16, and the fields it read are the whole word. -/
theorem encodeOfDecodeIsTheWord : Obligations.EncodeOfDecodeIsTheWord :=
  fun _ _ h => ⟨decode_wellFormed h, encode_of_decode h⟩

/-- Settles O5: each accepted word is the one `encode` makes of its command; the other two fail at the opcode and at a
reserved bit. -/
theorem writtenOutWordsDecode : Obligations.WrittenOutWordsDecode := by
  refine ⟨decode_encode (i := .nop) rfl, decode_encode (i := .clrerr) rfl, decode_encode (i := .keyload) rfl,
    decode_encode (i := .keyclr) rfl, decode_encode (i := .ksrot 2) rfl, decode_encode (i := .skread 15) rfl,
    decode_encode (i := .enc) rfl, decode_encode (i := .dec) rfl, decode_encode (i := .ffunc 0) rfl,
    decode_encode (i := .round 5) rfl, decode_encode (i := .permIp) rfl, decode_encode (i := .permPc2) rfl,
    decode_encode (i := .sbox) rfl, (decode_illegal_iff _).2 rfl, (decode_reserved_iff _).2 ⟨.round 0, rfl, rfl⟩⟩

/-! ### Commands without a word -/

/-- Only a format-I command can lack a word, and then by its index (R92, R101). -/
theorem sixteen_le_indexOf {i : Instr} (h : i.wellFormed = false) : 16 ≤ indexOf i := by
  cases i with
  | ksrot idx | ffunc idx | round idx | skread idx => simpa [Instr.wellFormed, indexOf] using h
  | _ => simp [Instr.wellFormed] at h

theorem asm_illFormed {i : Instr} (h : i.wellFormed = false) : asm i = none := by simp [asm, h]

theorem asm_wellFormed {i : Instr} (h : i.wellFormed = true) : asm i = some (encode i) := by simp [asm, h]

/-- Settles O6: `asm` gives no word, so neither the command nor `CMD` of it runs. -/
theorem indexOutsideRangeHasNoWord : Obligations.IndexOutsideRangeHasNoWord := by
  intro i s h
  refine ⟨sixteen_le_indexOf h, asm_illFormed h, Machine.exec_illFormed h s, ?_⟩
  rw [Machine.runStmt, asm_illFormed h]

end Sys2Proof
end

section
/-! The two phases of a command (44_control.md): its CMD write (R240 to R242), the completion of each command (R245,
R246), and what neither changes. -/

namespace Sys2Proof.Machine

/-! ### The CMD write -/

/-- The commands that read SK (R240 step 4), listed. -/
theorem needsKey_iff (i : Instr) :
    needsKey i = true ↔ i = .enc ∨ i = .dec ∨ ∃ idx, i = .ffunc idx ∨ i = .round idx ∨ i = .skread idx := by
  cases i <;> simp [needsKey]

/-- The acceptance of a command, field by field (R241). -/
theorem issue_accept_eq {i : Instr} {s : State} (hb : s.busy = false) (hk : needsKey i = true → s.keyValid = true) :
    ∃ n, issue i s = { s with
      done := false
      inflight := some { cmd := i, key := s.key, din := s.din }
      busy := true
      wait := n
      latencies := s.latencies.tail
      draws := s.draws + 1 } :=
  ⟨nextLatency s, issue_accept hb hk⟩

theorem hostWrite_cmd_ok {w : Word} {i : Instr} {s : State} (hs : Idle s) (hd : decode w = .ok i) :
    hostWrite .cmd w s = .next (issue i s) := by
  rw [hostWrite_cmd w hs.1, cmdWrite_ok hd hs.2]

/-- Settles O7: a busy machine drops, a word that does not decode is rejected, and a command is issued. -/
theorem cmdWriteProcedure : Obligations.CmdWriteProcedure := by
  refine fun w s => ⟨fun hb r v => hostWrite_busy v r hb, fun hb c hd => hostWrite_cmd_error hb hd, fun hs i hd => ?_⟩
  rw [hostWrite_cmd_ok hs hd]
  refine ⟨needsKey_iff i, fun hk hv => congrArg _ (issue_noKey hs.1 hk hv), fun hk => ?_⟩
  obtain ⟨n, hn⟩ := issue_accept_eq hs.1 hk
  exact ⟨n, congrArg _ hn⟩

/-- Settles O10: with nothing in flight `exec` is the CMD write, which accepts or rejects for want of a key. -/
theorem execAtTheWriteAcceptsOrRejects : Obligations.ExecAtTheWriteAcceptsOrRejects := by
  intro i s hw hs
  rw [exec_at_write hw hs.2]
  refine ⟨fun hk => ?_, fun hk hv => congrArg _ (issue_noKey hs.1 hk hv)⟩
  obtain ⟨n, hn⟩ := issue_accept_eq hs.1 hk
  exact ⟨n, congrArg _ hn⟩

/-! ### The completion of each command -/

/-- `exec_in_flight` in the terms of the statements. -/
theorem exec_of_inFlightIs {i : Instr} {key din : Word} {s : State} (hw : i.wellFormed = true)
    (h : InFlightIs i key din s) : exec i s = .next (complete (effect i { cmd := i, key := key, din := din } s)) :=
  exec_in_flight h hw

/-- Settles O11: the effects of NOP and CLRERR, then the end of the command. -/
theorem controlCommandsComplete : Obligations.ControlCommandsComplete :=
  fun _ _ _ => ⟨exec_of_inFlightIs rfl, exec_of_inFlightIs rfl⟩

/-- Settles O12: the effect of KEYLOAD is the schedule of the captured KEY. -/
theorem keyloadFillsTheSubkeyFile : Obligations.KeyloadFillsTheSubkeyFile :=
  fun _ _ _ => exec_of_inFlightIs rfl

/-- Settles O13: the effect of KEYCLR is an empty schedule. -/
theorem keyclrZeroesTheSubkeyFile : Obligations.KeyclrZeroesTheSubkeyFile :=
  fun _ _ _ => exec_of_inFlightIs rfl

/-- Settles O14: the effects of ENC and DEC are the block under SK. -/
theorem encAndDecWriteTheBlock : Obligations.EncAndDecWriteTheBlock :=
  fun _ _ _ => ⟨exec_of_inFlightIs rfl, exec_of_inFlightIs rfl⟩

/-- Settles O15: the effect of each PERM command is its table's permutation, placed by `zext64`. -/
theorem permutationCommandsWriteTheirResult : Obligations.PermutationCommandsWriteTheirResult :=
  fun _ _ _ => ⟨exec_of_inFlightIs rfl, exec_of_inFlightIs rfl, exec_of_inFlightIs rfl, exec_of_inFlightIs rfl,
    exec_of_inFlightIs rfl, exec_of_inFlightIs rfl⟩

/-- Settles O16: the effect of SBOX is the substitution of the low 48 bits. -/
theorem sboxWritesTheSubstitution : Obligations.SboxWritesTheSubstitution :=
  fun _ _ _ => exec_of_inFlightIs rfl

/-- The halves of C‖D in the low 56 bits of a register (R96, R193). -/
theorem keyLeft_lowBits (w : Word) : keyLeft (lowBits 56 w) = w.extractLsb' 28 28 := by
  apply BitVec.eq_of_getLsbD_eq
  intro i hi
  have hlt : 28 + i < 56 := by omega
  simp [keyLeft, lowBits, hi, hlt]

theorem keyRight_lowBits (w : Word) : keyRight (lowBits 56 w) = w.extractLsb' 0 28 := by
  apply BitVec.eq_of_getLsbD_eq
  intro i hi
  have hlt : i < 56 := by omega
  simp [keyRight, lowBits, hi, hlt]

/-- Settles O17: the rotation of the round with the shift R180 gives it, on the halves of `din[55:0]`. -/
theorem ksrotRotatesBothHalves : Obligations.KsrotRotatesBothHalves := by
  intro s key din idx hidx h
  rw [exec_of_inFlightIs (i := .ksrot idx) (decide_eq_true hidx) h]
  simp only [effect, rotateHalves, finOfNat_eq hidx, keyLeft_lowBits, keyRight_lowBits, shiftsTable_eq]
  rfl

/-- The subkey an index below 16 names (R92). -/
theorem getElem_finOfNat (sk : Vector Subkey 16) {idx : Nat} (h : idx < 16) : sk[Fin.ofNat 16 idx] = sk[idx] := by
  simp only [finOfNat_eq h]
  rfl

/-- Settles O18: the effect of SKREAD is the subkey its index names. -/
theorem skreadWritesTheSubkey : Obligations.SkreadWritesTheSubkey := by
  intro s key din idx hidx h
  rw [exec_of_inFlightIs (i := .skread idx) (decide_eq_true hidx) h, effect, getElem_finOfNat s.sk hidx]
  rfl

/-- Settles O19: the effects of FFUNC and ROUND with the subkey the index names. -/
theorem ffuncAndRoundWriteTheirResult : Obligations.FfuncAndRoundWriteTheirResult := by
  refine fun s key din idx hidx => ⟨fun h => ?_, fun h => ?_⟩
  · rw [exec_of_inFlightIs (i := .ffunc idx) (decide_eq_true hidx) h, effect, getElem_finOfNat s.sk hidx]
    rfl
  · rw [exec_of_inFlightIs (i := .round idx) (decide_eq_true hidx) h, effect, getElem_finOfNat s.sk hidx]
    rfl

/-! ### The frame of a command -/

/-- What a CMD write leaves as it is, whichever way it ends. -/
theorem issue_frame (i : Instr) (s : State) :
    (issue i s).key = s.key ∧ (issue i s).din = s.din ∧ (issue i s).dout = s.dout ∧ (issue i s).sk = s.sk ∧
    (issue i s).keyValid = s.keyValid ∧ (issue i s).hostVars = s.hostVars ∧ (issue i s).program = s.program ∧
    (issue i s).resets = s.resets := by
  obtain ⟨_, he⟩ | ⟨_, _, _, he⟩ | ⟨_, _, he⟩ := issue_cases i s <;> simp [he]

/-- Settles O20: a completion changes what the command's effect changes; a CMD write, nothing of the frame. -/
theorem commandFrame : Obligations.CommandFrame := by
  intro i s t h
  obtain ⟨_, ⟨f, hf, rfl, rfl⟩ | ⟨hnot, rfl⟩⟩ := exec_cases h
  · have hflight : ∃ key din, InFlightIs f.cmd key din s := ⟨f.key, f.din, hf⟩
    refine ⟨by simp, by simp, by simp, by simp, by simp, fun hload hclr => ?_, fun hres => ?_, fun _ hclrerr => ?_,
      fun hn => absurd hflight hn⟩
    · simp [effect_sk, effect_keyValid, hload, hclr]
    · simp [effect_dout _ _ _ hres]
    · simp [effect_err, hclrerr]
  · obtain ⟨hkey, hdin, hdout, hsk, hvalid, hvars, hprogram, hresets⟩ := issue_frame i s
    exact ⟨hkey, hdin, hvars, hprogram, hresets, fun _ _ => ⟨hsk, hvalid⟩, fun _ => hdout,
      fun ⟨key, din, hin⟩ => absurd rfl (hnot _ hin), fun _ => ⟨hsk, hvalid, hdout⟩⟩

end Sys2Proof.Machine
end

section
/-! The subkeys by total rotation (R181 to R184), and ENC and DEC as sixteen ROUNDs (R214, R215, R223), with the
source's known answer (V1). -/

namespace Sys2Proof.Machine

/-! ### The subkeys -/

/-- `rotl28_eq_rotateLeft` up to and including the whole turn. -/
theorem rotl28_eq_rotateLeft_of_le (x : KeyHalf) {s : Nat} (h : s ≤ 28) : rotl28 x s = x.rotateLeft s := by
  obtain hlt | rfl := h.lt_or_eq
  · exact rotl28_eq_rotateLeft x hlt
  · calc
      rotl28 x 28 = rotl28 x 0 := by rw [rotl28_full, rotl28_zero]
      _ = x.rotateLeft 0 := rotl28_eq_rotateLeft x (by decide)
      _ = x.rotateLeft 28 := rfl

theorem keySchedule_getElem (key : Word) (i : Fin 16) : (keySchedule key)[i] = roundKey key i := by
  simp [keySchedule]

/-- Settles O27: `roundKey_eq`, its rotations written as the library's. -/
theorem subkeyIsPc2OfTheTotalRotation : Obligations.SubkeyIsPc2OfTheTotalRotation := by
  intro key i
  have hle := totalShift_le (i.val + 1)
  rw [keySchedule_getElem, roundKey_eq, rotl28_eq_rotateLeft_of_le _ hle, rotl28_eq_rotateLeft_of_le _ hle]
  rfl

/-! ### Single rounds -/

/-- Rotating a block by half its width swaps its halves. -/
theorem rotateLeft_halves (l r : Half) : (l ++ r : Word).rotateLeft 32 = r ++ l := by
  apply BitVec.eq_of_getLsbD_eq
  intro i hi
  rw [BitVec.getLsbD_rotateLeft, BitVec.getLsbD_append, BitVec.getLsbD_append, BitVec.getLsbD_append]
  by_cases h : i < 32
  · simp [h]
  · have hhi : i - 32 < 32 := by omega
    simp [h, hi, hhi]

/-- Rounds applied one after another to a block are the rounds on its halves, without the final swap (R223). -/
theorem foldl_roundBlock (ks : List Subkey) (lr : Half × Half) :
    ks.foldl roundBlock (lr.1 ++ lr.2) = (ks.foldl feistelRound lr).1 ++ (ks.foldl feistelRound lr).2 := by
  induction ks generalizing lr with
  | nil => rfl
  | cons k ks ih =>
    have hround : roundBlock (lr.1 ++ lr.2) k = (feistelRound lr k).1 ++ (feistelRound lr k).2 := by
      simp only [roundBlock, leftHalf_append, rightHalf_append]
    rw [List.foldl_cons, List.foldl_cons, hround, ih]

/-- `rounds` with its swap of the halves taken out (R213). -/
theorem rounds_eq_rotateLeft (b : Word) (ks : List Subkey) : rounds b ks = (ks.foldl roundBlock b).rotateLeft 32 := by
  have hfold := foldl_roundBlock ks (leftHalf b, rightHalf b)
  rw [leftHalf_append_rightHalf] at hfold
  rw [hfold, rotateLeft_halves, rounds]

/-- Settles O33: both directions are `rounds` between IP and FP. -/
theorem encIsSixteenRoundCommands : Obligations.EncIsSixteenRoundCommands :=
  fun sk b => ⟨by rw [encryptBlock, rounds_eq_rotateLeft], by rw [decryptBlock, rounds_eq_rotateLeft]⟩

/-! ### The known answer -/

theorem encryptBlock_knownAnswer :
    encryptBlock (keySchedule 0x0123456789ABCDEF) 0x4E6F772069732074 = 0x3FA40E8A984D4815 := by decide +kernel

/-- Settles O32: the encryption evaluated, the decryption from it by R216. -/
theorem knownAnswerVector : Obligations.KnownAnswerVector := by
  refine ⟨encryptBlock_knownAnswer, ?_⟩
  rw [← encryptBlock_knownAnswer, decryptBlock_encryptBlock]

end Sys2Proof.Machine
end

section
/-! Text, hexadecimal and blocks: the statements about the driver's conversions (R261 to R264) and about `encrypt`
(R269, R272), from the lemmas about each. -/

namespace Sys2Proof.Machine

/-- Settles O56: the bytes of the text, each read back from its eight bits. -/
theorem textSurvivesItsBits : Obligations.TextSurvivesItsBits := bitsToText_textToBits

theorem hexValue_toLower_hexDigit : ∀ n, n < 16 → hexValue (hexDigit n).toLower = some n := by decide

/-- Settles O57: the round trip group by group, and the sixteen digits in both cases. -/
theorem bitsSurviveTheirHex : Obligations.BitsSurviveTheirHex :=
  ⟨hexToBits_bitsToHex, fun n hn => ⟨hexValue_hexDigit n hn, hexValue_toLower_hexDigit n hn⟩⟩

/-- Settles O58: after SETKEY the machine is ready with the key's schedule, and each block runs from there. -/
theorem driverEncryptsEachBlockAlone : Obligations.DriverEncryptsEachBlockAlone :=
  fun _ _ _ hs hk => encrypt_idle hs hk

end Sys2Proof.Machine
end

section
/-! Which accesses the bus admits, for every base (R61 to R63). -/

namespace Sys2Proof.Machine

/-! ### The address decoder -/

theorem number_ofNumber (n : Fin 8) : (Slot.ofNumber n).number = n.val := by
  revert n; decide

theorem decodeAddress_outside {base addr : Nat} (h : addr < base ∨ base + 64 ≤ addr) :
    decodeAddress base addr = .outside := by
  simp [decodeAddress, h]

/-- An address of the window, said with its offset. -/
theorem decodeAddress_inside {base addr : Nat} (hlo : base ≤ addr) (hhi : addr < base + 64) :
    decodeAddress base addr =
      if (addr - base) % 8 ≠ 0 then .misaligned else .slot (Slot.ofNumber (Fin.ofNat 8 ((addr - base) / 8))) := by
  simp [decodeAddress, hlo, hhi]

/-- Every aligned address of the window is the address of the slot its offset names (R61). -/
theorem slotAddress_ofNumber {base addr : Nat} (hlo : base ≤ addr) (hhi : addr < base + 64)
    (hal : (addr - base) % 8 = 0) : slotAddress base (Slot.ofNumber (Fin.ofNat 8 ((addr - base) / 8))) = addr := by
  rw [slotAddress, number_ofNumber, Fin.val_ofNat]
  omega

/-- Only a slot's own address decodes to it. -/
theorem eq_slotAddress_of_decodeAddress {base addr : Nat} {r : Slot} (h : decodeAddress base addr = .slot r) :
    addr = slotAddress base r := by
  by_cases hout : addr < base ∨ base + 64 ≤ addr
  · simp [decodeAddress_outside hout] at h
  · push Not at hout
    rw [decodeAddress_inside hout.1 hout.2] at h
    split at h
    · cases h
    next hal =>
      cases h
      exact (slotAddress_ofNumber hout.1 hout.2 (not_not.1 hal)).symm

/-! ### Admission -/

section admitAccess
variable {addr width : Nat} (k : Slot → Result)

theorem admitAccess_slotAddress (r : Slot) : admitAccess (slotAddress Config.deseBase r) 8 k = k r := by
  simp [admitAccess, decodeAddress_slotAddress]

theorem admitAccess_outside (h : addr < Config.deseBase ∨ Config.deseBase + 64 ≤ addr) :
    admitAccess addr width k = .refused .outsideWindow := by
  simp [admitAccess, decodeAddress_outside h]

/-- The width is looked at before the alignment (log entry 9). -/
theorem admitAccess_badWidth (hlo : Config.deseBase ≤ addr) (hhi : addr < Config.deseBase + 64) (hw : width ≠ 8) :
    admitAccess addr width k = .fault .badAccessWidth := by
  by_cases hal : (addr - Config.deseBase) % 8 = 0 <;> simp [admitAccess, decodeAddress_inside hlo hhi, hal, hw]

theorem admitAccess_misaligned (hlo : Config.deseBase ≤ addr) (hhi : addr < Config.deseBase + 64)
    (hal : (addr - Config.deseBase) % 8 ≠ 0) : admitAccess addr 8 k = .fault .misalignedAccess := by
  simp [admitAccess, decodeAddress_inside hlo hhi, hal]

end admitAccess

/-- Settles O36: both accesses go through `admitAccess`, one lemma per kind of address. -/
theorem onlyAlignedWordAccessesAreAdmitted : Obligations.OnlyAlignedWordAccessesAreAdmitted := by
  refine ⟨fun r v n s => ⟨admitAccess_slotAddress _ r, admitAccess_slotAddress _ r⟩, fun addr width v n s => ?_⟩
  exact ⟨fun h => ⟨admitAccess_outside _ h, admitAccess_outside _ h⟩,
    fun hlo hhi hw => ⟨admitAccess_badWidth _ hlo hhi hw, admitAccess_badWidth _ hlo hhi hw⟩,
    fun hlo hhi hal => ⟨admitAccess_misaligned _ hlo hhi hal, admitAccess_misaligned _ hlo hhi hal⟩,
    fun hlo hhi hal => ⟨_, (slotAddress_ofNumber hlo hhi hal).symm⟩⟩

end Sys2Proof.Machine
end

section
/-! One step of the machine: the invariant every step keeps (R36 to R39, R47, R241), and reset (R340, R341). -/

namespace Sys2Proof.Machine

/-! ### The invariant -/

theorem StateInvariant.inflight_none {s : State} (h : StateInvariant s) (hb : s.busy = false) : s.inflight = none := by
  have hsome := h.busy_iff
  rw [hb] at hsome
  exact Option.isNone_iff_eq_none.1 (by simpa using hsome.symm)

/-- The invariant does not speak of the host or the schedule. -/
theorem StateInvariant.reschedule {s : State} (h : StateInvariant s) (p : List HostStmt) (hv : Vector Word 8) (w : Nat)
    (r : List Nat) : StateInvariant (reschedule s p hv w r) :=
  ⟨h.busy_iff, h.captured, h.admitted, h.schedule, h.err_range, h.not_done⟩

/-- With nothing in flight and the flags clear the invariant holds whatever the registers are. -/
theorem stateInvariant_deviceReset (s : State) : StateInvariant (deviceReset s) where
  busy_iff := rfl
  captured := by simp
  admitted := by simp
  schedule := by simp
  err_range := by simp
  not_done := by simp

/-- A completion: KEYLOAD takes the schedule from the captured KEY, which is the live one. -/
theorem StateInvariant.complete_effect {s : State} (h : StateInvariant s) {f : InFlight} (hf : s.inflight = some f) :
    StateInvariant (complete (effect f.cmd f s)) where
  busy_iff := rfl
  captured := by simp
  admitted := by simp
  schedule := by
    obtain ⟨hkey, -⟩ := h.captured f hf
    simp only [complete_keyValid, complete_sk, complete_key, effect_keyValid, effect_sk, effect_key, hkey]
    split_ifs
    · exact fun _ => rfl
    · exact fun hv => by simp at hv
    · exact h.schedule
  err_range := by
    rw [complete_err, effect_err]
    split_ifs
    · exact Nat.zero_le 4
    · exact h.err_range
  not_done := by simp

theorem code_toNat_le (c : ErrCode) : c.code.toNat ≤ 4 := by
  cases c <;> decide

theorem record_err_range (c : ErrCode) {s : State} (h : s.err.toNat ≤ 4) : (record c s).err.toNat ≤ 4 := by
  rw [record_err]
  split_ifs
  · exact code_toNat_le c
  · exact h

/-- A change the host makes: every one but `drop` needs an idle machine. -/
theorem StateInvariant.hostChange {u t : State} (h : StateInvariant u) (hc : HostChange u t) : StateInvariant t := by
  cases hc with
  | stay => exact h
  | drop hb => exact { h with err_range := record_err_range .busy h.err_range }
  | writeKey v hb =>
    exact { h with
      captured := by simp [h.inflight_none hb]
      admitted := by simp [h.inflight_none hb]
      schedule := by simp }
  | writeDin v hb => exact { h with captured := by simp [h.inflight_none hb] }
  | reject c hb => exact { h with
      err_range := record_err_range c h.err_range
      not_done := fun _ => rfl }
  | accept i hb hw hk => exact {
      busy_iff := rfl
      captured := by simp
      admitted := by simpa using ⟨hw, hk⟩
      schedule := h.schedule
      err_range := h.err_range
      not_done := fun _ => rfl }

/-- Settles O40: each of the things a step can do keeps the invariant. -/
theorem everyStepKeepsTheInvariant : Obligations.EveryStepKeepsTheInvariant := by
  intro s t hi h
  obtain ⟨_, rfl⟩ | ⟨_, f, hf, _, rfl⟩ | ⟨_, _, ⟨p, w, r, hc⟩ | ⟨p, hv, w, r, rfl⟩⟩ := step_effect_cases hi h
  · exact stateInvariant_deviceReset _
  · exact (hi.reschedule s.program s.hostVars s.wait (tickResets s.resets)).complete_effect hf
  · exact (hi.reschedule p s.hostVars w r).hostChange hc
  · exact hi.reschedule p hv w r

/-- Settles O41: the state after reset is a reset of itself. -/
theorem resetSatisfiesTheInvariant : Obligations.ResetSatisfiesTheInvariant :=
  stateInvariant_deviceReset State.reset

/-! ### Reset -/

theorem step_resetDue {s : State} (h : resetDue s = true) :
    step s = .next (deviceReset { s with resets := s.resets.tail }) := by
  unfold step machineStep
  cases hr : s.resets with
  | nil => simp [resetDue, hr] at h
  | cons n rest =>
    cases n with
    | zero => rfl
    | succ n => simp [resetDue, hr] at h

/-- Settles O43: a due reset is `deviceReset`, and STATUS reads 0 by its fields. -/
theorem resetDiscardsTheCommandInFlight : Obligations.ResetDiscardsTheCommandInFlight := fun _ h =>
  ⟨_, step_resetDue h, rfl, rfl, rfl, rfl, rfl, rfl, rfl, hostRead_status_eq_zero rfl rfl rfl rfl, rfl, rfl, rfl, rfl⟩

end Sys2Proof.Machine
end

section
/-! What a host statement does to the machine (R100 to R103), and the step that runs it (R70, R243, R244). -/

namespace Sys2Proof.Machine

/-! ### Statements that write nothing -/

/-- The statements that can write a slot. -/
def HostStmt.writes : HostStmt → Bool
  | .wr _ _ | .memWrite _ _ _ | .cmd _ => true
  | .skip | .seq _ _ | .rd _ _ | .memRead _ _ _ | .cmdVar _ _ | .assign _ _ | .assert _ => false
  | .forLoop _ _ _ _ | .loopUntil _ _ | .untilCheck _ _ => false

/-- Every other statement acts on the host alone. -/
theorem runStmt_reschedule {st : HostStmt} {s t : State} (hst : st.writes = false) (h : runStmt st s = .next t) :
    t = reschedule s t.program t.hostVars s.wait s.resets := by
  cases st with
  | wr | memWrite | cmd => simp [HostStmt.writes] at hst
  | skip | seq | rd | loopUntil => cases h; rfl
  | cmdVar => cases h
  | memRead n addr width =>
    obtain ⟨r, _, _, hr⟩ := admitAccess_next h
    cases hr
    rfl
  | assign n e =>
    rw [runStmt] at h
    split at h
    · split at h <;> cases h
      rfl
    · cases h
  | assert c =>
    rw [runStmt] at h
    split at h
    · split at h <;> cases h
      rfl
    · cases h
  | forLoop x a b body =>
    rw [runStmt] at h
    split at h
    · cases h; rfl
    · split at h <;> cases h
      rfl
  | untilCheck body c =>
    rw [runStmt] at h
    split at h
    · split at h <;> cases h <;> rfl
    · cases h

theorem runStmt_assert {c : Cond} (s : State) (hc : c.wellFormed = true) :
    runStmt (.assert c) s = if c.eval s.hostVars then .next s else .fault .assertFailed := by
  rw [runStmt, if_pos hc]

/-- Settles O52: the seven kinds of statement write nothing; ASSERT by the value of its condition. -/
theorem hostComputationTouchesNoRegister : Obligations.HostComputationTouchesNoRegister := by
  refine ⟨fun st s t hst h => ?_, fun c s hc => ⟨fun hf => ?_, fun ht => ?_⟩⟩
  · refine runStmt_reschedule ?_ h
    obtain rfl | ⟨_, _, rfl⟩ | ⟨_, _, rfl⟩ | ⟨_, rfl⟩ | ⟨_, _, _, _, rfl⟩ | ⟨_, _, rfl⟩ | ⟨_, _, rfl⟩ := hst <;> rfl
  · rw [runStmt_assert s hc, hf]; rfl
  · rw [runStmt_assert s hc, ht]; rfl

/-! ### The step that runs a statement -/

theorem hostStep_nil {s : State} (h : s.program = []) : hostStep s = .next s := by
  rw [hostStep, h]

theorem hostStep_cons {s : State} {st : HostStmt} {rest : List HostStmt} (h : s.program = st :: rest) :
    hostStep s = runStmt st { s with program := rest } := by
  rw [hostStep, h]

theorem isNext_eq_false {r : Result} (h : ∀ t, r ≠ .next t) : isNext r = false := by
  cases r with
  | next t => exact absurd rfl (h t)
  | fault | refused => rfl

theorem tickResets_eq_nil_iff (l : List Nat) : tickResets l = [] ↔ l = [] := by
  unfold tickResets
  split <;> simp_all

section idle
variable {s : State} {st : HostStmt} {rest : List HostStmt}

/-- With no command in flight a step runs the next statement where it answers a next state. -/
theorem step_runStmt_idle {t : State} (hd : resetDue s = false) (hp : s.program = st :: rest) (hf : s.inflight = none)
    (h : runStmt st { s with program := rest, resets := tickResets s.resets } = .next t) : step s = .next t := by
  have hhost : hostStep { s with resets := tickResets s.resets } = .next t :=
    (hostStep_cons (s := { s with resets := tickResets s.resets }) hp).trans h
  rw [step_idle hd hf, hhost]
  exact ite_self _

/-- Without a reset to come it answers what the statement answers, a stop too. -/
theorem step_runStmt_idle_noResets (hp : s.program = st :: rest) (hf : s.inflight = none) (hr : s.resets = []) :
    step s = runStmt st { s with program := rest } := by
  have hd : resetDue s = false := by simp [resetDue, hr]
  have htick : tickResets s.resets = s.resets := by simp [tickResets, hr]
  rw [step_idle hd hf, htick, if_pos (by simp [hr])]
  exact hostStep_cons hp

/-- A host without a step lets time pass to the next reset. -/
theorem step_stuck_idle (hd : resetDue s = false) (hp : s.program = st :: rest) (hf : s.inflight = none)
    (hr : s.resets ≠ []) (h : ∀ t, runStmt st { s with program := rest, resets := tickResets s.resets } ≠ .next t) :
    step s = .next { s with resets := tickResets s.resets } := by
  have hhost : hostStep { s with resets := tickResets s.resets } =
      runStmt st { s with program := rest, resets := tickResets s.resets } := hostStep_cons hp
  rw [step_idle hd hf, hhost, hostOrElse_of_not_isNext (isNext_eq_false h)]
  exact if_neg (by simpa [tickResets_eq_nil_iff] using hr)

end idle

/-- The three ways a statement writes a command word to CMD. -/
theorem runStmt_commandWord {st : HostStmt} {u : State} {w : Word} {i : Instr} {v : Src} (hb : u.busy = false)
    (hv : v.value u = w) (hd : decode w = .ok i)
    (hst : st = .wr .cmd v ∨ st = .memWrite (slotAddress Config.deseBase .cmd) 8 v ∨ st = .cmd i) :
    runStmt st u = exec i u := by
  have hwrite : ∀ x, decode x = .ok i → hostWrite .cmd x u = exec i u := fun x hx => by
    rw [hostWrite_cmd x hb, cmdWrite, hx]
  obtain rfl | rfl | rfl := hst
  · exact (congrArg (hostWrite .cmd · u) hv).trans (hwrite w hd)
  · rw [runStmt, busWrite, admitAccess_slotAddress, hv, hwrite w hd]
  · have hw := decode_wellFormed hd
    rw [runStmt, asm_wellFormed hw]
    exact hwrite _ (decode_encode hw)

/-- A command word written to an idle machine is run by that step, whether accepted or rejected. -/
theorem step_commandWord {s : State} {w : Word} {i : Instr} {rest : List HostStmt} {v : Src} (hs : Idle s)
    (hd : resetDue s = false) (hv : v.value s = w) (hw : decode w = .ok i)
    (hp : s.program = .wr .cmd v :: rest ∨ s.program = .memWrite (slotAddress Config.deseBase .cmd) 8 v :: rest ∨
      s.program = .cmd i :: rest) :
    step s = exec i { s with program := rest, resets := tickResets s.resets } := by
  obtain ⟨st, hprog, hst⟩ : ∃ st, s.program = st :: rest ∧
      (st = .wr .cmd v ∨ st = .memWrite (slotAddress Config.deseBase .cmd) 8 v ∨ st = .cmd i) := by
    obtain hp | hp | hp := hp
    · exact ⟨_, hp, .inl rfl⟩
    · exact ⟨_, hp, .inr (.inl rfl)⟩
    · exact ⟨_, hp, .inr (.inr rfl)⟩
  have hrun : runStmt st { s with program := rest, resets := tickResets s.resets } =
      exec i { s with program := rest, resets := tickResets s.resets } :=
    runStmt_commandWord hs.1 (by cases v <;> exact hv) hw hst
  have hnext :=
    exec_at_write (s := { s with program := rest, resets := tickResets s.resets }) (decode_wellFormed hw) hs.2
  rw [hnext]
  exact step_runStmt_idle hd hprog hs.2 (hrun.trans hnext)

/-- Settles O37: the idle machine's step in its three cases, the host's turn while a command is in flight, and the step
that writes a command word. -/
theorem stepRunsTheCommandWritten : Obligations.StepRunsTheCommandWritten := by
  refine ⟨fun s st rest hd hp hf => ⟨fun t => step_runStmt_idle hd hp hf, step_runStmt_idle_noResets hp hf,
    step_stuck_idle hd hp hf⟩, fun s f n st rest hd hp hf hw => ?_, fun s w i rest v => step_commandWord⟩
  have hhost : hostStep { s with wait := n, resets := tickResets s.resets } =
      runStmt st { s with program := rest, wait := n, resets := tickResets s.resets } := hostStep_cons hp
  rw [step_hostTurn hd hf hw (by simp [hp]), hhost]
  exact ⟨fun t ht => by rw [ht]; rfl, fun hstuck => hostOrElse_of_not_isNext (isNext_eq_false hstuck)⟩

/-- Settles O38: the engine's turn, as the law of the step says it. -/
theorem stepRunsTheCommandInFlight : Obligations.StepRunsTheCommandInFlight := fun _ _ => step_engineTurn

/-! ### A placed word -/

theorem decode_of_decodeTableWord {nbits w : Nat} {i : Instr} (h : decodeTableWord nbits w = some i) :
    decode (BitVec.ofNat 64 (w % 2 ^ nbits)) = .ok i := by
  unfold decodeTableWord at h
  split at h
  · split at h
    next hj => rw [hj, Option.some.inj h]
    · cases h
  · cases h

theorem resetDue_placeCommand (w : Word) (s : State) : resetDue (placeCommand w s) = false := by
  unfold placeCommand resetDue
  dsimp only
  split
  next heq => split at heq <;> simp_all
  · rfl

/-- Settles O39: the placed write is the next statement of an idle machine with no reset due. -/
theorem stepRunsThePlacedWord : Obligations.StepRunsThePlacedWord := fun s nbits w _ h =>
  ⟨_, step_commandWord (s := s.withFetchWord nbits w) ⟨rfl, rfl⟩ (resetDue_placeCommand _ s) (v := .lit _) rfl
    (decode_of_decodeTableWord h) (.inl rfl)⟩

end Sys2Proof.Machine
end

section
/-! Who writes each register (10_state.md section 1): what a step that changes ERR, DOUT, SK or KEY_VALID was, and what
stays while a command is in flight. -/

namespace Sys2Proof.Machine

/-! ### What the host cannot change -/

section hostChange
variable {u t : State} (h : HostChange u t)
include h

theorem HostChange.dout_eq : t.dout = u.dout := by cases h <;> rfl

theorem HostChange.sk_eq : t.sk = u.sk := by cases h <;> rfl

/-- A recorded code stays: only the first error is recorded (R303). -/
theorem HostChange.err_eq (he : u.err ≠ 0) : t.err = u.err := by
  cases h with
  | drop | reject => exact if_neg he
  | stay | writeKey | writeDin | accept => rfl

/-- The host can clear KEY_VALID but not set it. -/
theorem HostChange.keyValid_eq_false (hv : u.keyValid = false) : t.keyValid = false := by cases h <;> simp [hv]

/-- While busy the host can only be dropped. -/
theorem HostChange.busy_cases (hb : u.busy = true) : t = u ∨ t = Machine.drop u := by
  cases h with
  | stay => exact .inl rfl
  | drop => exact .inr rfl
  | writeKey _ hb' | writeDin _ hb' | reject _ hb' | accept _ hb' => simp [hb] at hb'

end hostChange

/-- Settles O44: an effect leaves ERR alone unless it is CLRERR's, and the host cannot overwrite a recorded code. -/
theorem errIsSticky : Obligations.ErrIsSticky := by
  intro s t hi h he hne
  obtain ⟨hd, rfl⟩ | ⟨ht, f, hf, _, rfl⟩ | ⟨_, _, ⟨p, w, r, hc⟩ | ⟨p, hv, w, r, rfl⟩⟩ := step_effect_cases hi h
  · exact ⟨rfl, .inl hd⟩
  · rw [complete_err, effect_err] at hne ⊢
    by_cases hcmd : f.cmd = .clrerr
    · exact ⟨if_pos hcmd, .inr ⟨ht, f, hf, hcmd⟩⟩
    · exact absurd (if_neg hcmd) hne
  · exact absurd (hc.err_eq he) hne
  · exact absurd rfl hne

/-- Settles O45: only the effect of a result-producing command writes DOUT. -/
theorem doutChangesOnlyAtACompletion : Obligations.DoutChangesOnlyAtACompletion := by
  intro s t hi h hne
  obtain ⟨hd, rfl⟩ | ⟨ht, f, hf, _, rfl⟩ | ⟨_, _, ⟨p, w, r, hc⟩ | ⟨p, hv, w, r, rfl⟩⟩ := step_effect_cases hi h
  · exact .inl hd
  · cases hres : producesResult f.cmd with
    | true => exact .inr ⟨f.cmd, hres, ht, f, hf, rfl⟩
    | false => exact absurd (effect_dout _ _ _ hres) hne
  · exact absurd hc.dout_eq hne
  · exact absurd rfl hne

/-- Settles O46: only the effects of KEYLOAD and KEYCLR write SK. -/
theorem subkeysChangeOnlyByKeyloadOrKeyclr : Obligations.SubkeysChangeOnlyByKeyloadOrKeyclr := by
  intro s t hi h hne
  obtain ⟨hd, rfl⟩ | ⟨ht, f, hf, _, rfl⟩ | ⟨_, _, ⟨p, w, r, hc⟩ | ⟨p, hv, w, r, rfl⟩⟩ := step_effect_cases hi h
  · exact .inl hd
  · by_cases hload : f.cmd = .keyload
    · exact .inr (.inl ⟨ht, f, hf, hload⟩)
    · by_cases hclr : f.cmd = .keyclr
      · exact .inr (.inr ⟨ht, f, hf, hclr⟩)
      · exact absurd (by simp [effect_sk, hload, hclr]) hne
  · exact absurd hc.sk_eq hne
  · exact absurd rfl hne

/-- Settles O48: a step that ends busy was no reset and no completion, and the host's writes are dropped. -/
theorem registersAreStableInFlight : Obligations.RegistersAreStableInFlight := by
  intro s t hi h hb hb'
  obtain ⟨_, rfl⟩ | ⟨_, f, _, _, rfl⟩ | ⟨_, _, ⟨p, w, r, hc⟩ | ⟨p, hv, w, r, rfl⟩⟩ := step_effect_cases hi h
  · simp at hb'
  · simp at hb'
  · obtain rfl | rfl := hc.busy_cases hb <;> simp
  · simp

/-! ### KEY_VALID -/

/-- Of the writes to an idle machine only a KEY write clears KEY_VALID (R39). -/
theorem hostWrite_clears_keyValid {r : Slot} {v : Word} {u t : State} (hu : Idle u) (h : hostWrite r v u = .next t)
    (hv : u.keyValid = true) (hv' : t.keyValid = false) : r = .key ∧ t = { u with key := v, keyValid := false } := by
  cases r with
  | key =>
    rw [hostWrite_key v hu.1] at h
    cases h
    exact ⟨rfl, rfl⟩
  | din =>
    rw [hostWrite_din v hu.1] at h
    cases h
    simp [hv] at hv'
  | cmd =>
    rw [hostWrite_cmd v hu.1] at h
    obtain ⟨c, hc⟩ | ⟨i, hc⟩ := cmdWrite_idle_cases v hu <;>
    · cases hc.symm.trans h
      simp [hv] at hv'
  | dout | status | rsv5 | rsv6 | rsv7 =>
    rw [hostWrite_ignored v hu.1 (by simp)] at h
    cases h
    simp [hv] at hv'

/-- The statement that clears KEY_VALID is a KEY write, `WR` or an aligned 8-byte MemWrite. -/
theorem runStmt_clears_keyValid {st : HostStmt} {u t : State} (hu : Idle u) (h : runStmt st u = .next t)
    (hv : u.keyValid = true) (hv' : t.keyValid = false) :
    ∃ x, (st = .wr .key x ∨ st = .memWrite (slotAddress Config.deseBase .key) 8 x) ∧
      t = { u with key := x.value u, keyValid := false } := by
  cases hst : st.writes with
  | false =>
    rw [runStmt_reschedule hst h, reschedule_keyValid, hv] at hv'
    cases hv'
  | true =>
    cases st with
    | wr r x =>
      obtain ⟨rfl, ht⟩ := hostWrite_clears_keyValid hu h hv hv'
      exact ⟨x, .inl rfl, ht⟩
    | memWrite addr width x =>
      obtain ⟨r, haddr, rfl, hr⟩ := admitAccess_next h
      obtain ⟨rfl, ht⟩ := hostWrite_clears_keyValid hu hr hv hv'
      exact ⟨x, .inr (by rw [eq_slotAddress_of_decodeAddress haddr]), ht⟩
    | cmd i =>
      cases hw : i.wellFormed with
      | false => simp [runStmt, asm_illFormed hw] at h
      | true =>
        simp only [runStmt, asm_wellFormed hw] at h
        obtain ⟨hslot, _⟩ := hostWrite_clears_keyValid hu h hv hv'
        cases hslot
    | _ => simp [HostStmt.writes] at hst

/-- A step of an idle machine that clears KEY_VALID, no reset being due: the host's next statement was a KEY write. -/
theorem step_clears_keyValid {s t : State} (hs : Idle s) (hd : resetDue s = false) (h : step s = .next t)
    (hv : s.keyValid = true) (hv' : t.keyValid = false) :
    ∃ x p, (s.program = .wr .key x :: p ∨ s.program = .memWrite (slotAddress Config.deseBase .key) 8 x :: p) ∧
      t = { s with key := x.value s, keyValid := false, program := p, resets := tickResets s.resets } := by
  have hhost : hostStep { s with resets := tickResets s.resets } = .next t := by
    rw [step_idle hd hs.2] at h
    split at h
    · exact h
    · cases hr : hostStep { s with resets := tickResets s.resets } with
      | next u => rwa [hr] at h
      | fault | refused =>
        rw [hr] at h
        cases h
        simp [hv] at hv'
  cases hp : s.program with
  | nil =>
    rw [hostStep_nil (s := { s with resets := tickResets s.resets }) hp] at hhost
    cases hhost
    simp [hv] at hv'
  | cons st rest =>
    rw [hostStep_cons (s := { s with resets := tickResets s.resets }) hp] at hhost
    obtain ⟨x, hst, rfl⟩ := runStmt_clears_keyValid
      (u := { s with program := rest, resets := tickResets s.resets }) hs hhost hv hv'
    refine ⟨x, rest, by simpa using hst, ?_⟩
    cases x <;> rfl

section effect
variable {i : Instr} {f : InFlight} {s : State}

theorem effect_sets_keyValid (hv : s.keyValid = false) (hv' : (effect i f s).keyValid = true) : i = .keyload := by
  rw [effect_keyValid] at hv'
  split_ifs at hv' with hload
  · exact hload
  · simp [hv] at hv'

theorem effect_clears_keyValid (hv : s.keyValid = true) (hv' : (effect i f s).keyValid = false) : i = .keyclr := by
  rw [effect_keyValid] at hv'
  split_ifs at hv' with _ hclr
  · exact hclr
  · simp [hv] at hv'

end effect

/-- Settles O47: the effects of KEYLOAD and KEYCLR, reset, and the host's KEY write, which only an idle machine
admits. -/
theorem keyValidWriters : Obligations.KeyValidWriters := by
  intro s t hi h
  refine ⟨fun hv hv' => ?_, fun hv hv' => ?_⟩
  · obtain ⟨_, rfl⟩ | ⟨ht, f, hf, _, rfl⟩ | ⟨_, _, ⟨p, w, r, hc⟩ | ⟨p, hh, w, r, rfl⟩⟩ := step_effect_cases hi h
    · simp at hv'
    · have hcmd : f.cmd = .keyload := effect_sets_keyValid (s := { s with resets := tickResets s.resets }) hv hv'
      refine ⟨⟨ht, f, hf, hcmd⟩, ?_⟩
      rw [complete_sk, effect_sk, if_pos hcmd, (hi.captured f hf).1]
    · simp [hc.keyValid_eq_false hv] at hv'
    · simp [hv] at hv'
  · obtain ⟨hd, _⟩ | ⟨ht, f, hf, _, rfl⟩ | ⟨hd, _, hhost⟩ := step_effect_cases hi h
    · exact .inl hd
    · exact .inr (.inl ⟨ht, f, hf, effect_clears_keyValid (s := { s with resets := tickResets s.resets }) hv hv'⟩)
    · obtain hb | hb := Bool.dichotomy s.busy
      · exact .inr (.inr ⟨hb, step_clears_keyValid ⟨hb, hi.inflight_none hb⟩ hd h hv hv'⟩)
      · obtain ⟨p, w, r, hc⟩ | ⟨p, hh, w, r, rfl⟩ := hhost
        · obtain rfl | rfl := hc.busy_cases hb <;> simp [hv] at hv'
        · simp [hv] at hv'

/-! ### An error lost -/

/-- Settles O51: the dropped write leaves CLRERR in flight, and its completion clears the code. -/
theorem errBusyUnderClrerrIsLost : Obligations.ErrBusyUnderClrerrIsLost := fun s key din v r hb he h =>
  ⟨drop s, complete (clearErr (drop s)), hostWrite_busy v r hb, by simp [he],
    exec_of_inFlightIs (key := key) (din := din) rfl h, rfl, rfl⟩

end Sys2Proof.Machine
end

section
/-! What SK holds while KEY_VALID = 0 cannot be observed (R42, R342): two states that differ in nothing else have the
same outcomes, access by access, statement by statement and step by step. -/

namespace Sys2Proof.Machine

/-- The same state with another subkey file. -/
def withSk (x : Vector Subkey 16) (s : State) : State := { s with sk := x }

/-- Two outcomes that show no difference: equal, or next states that differ only in a subkey file that is not valid. -/
inductive SameOutcome : Result → Result → Prop
  | equal (r : Result) : SameOutcome r r
  | hidden {s t : State} (h : SameButInvalidSchedule s t) : SameOutcome (.next s) (.next t)

theorem SameOutcome.next_withSk {s : State} (x : Vector Subkey 16) (hv : s.keyValid = false) :
    SameOutcome (.next s) (.next (withSk x s)) :=
  .hidden ⟨hv, rfl⟩

theorem SameOutcome.hostOrElse {r r' o o' : Result} (hr : SameOutcome r r') (ho : SameOutcome o o') :
    SameOutcome (hostOrElse r o) (hostOrElse r' o') := by
  cases hr with
  | hidden h => exact .hidden h
  | equal =>
    cases r with
    | next t => exact .equal _
    | fault | refused => exact ho

theorem SameOutcome.ite {p : Prop} [Decidable p] {r r' o o' : Result} (hr : SameOutcome r r') (ho : SameOutcome o o') :
    SameOutcome (if p then r else o) (if p then r' else o') := by
  split_ifs
  · exact hr
  · exact ho

/-! ### Accesses -/

theorem admitAccess_sameOutcome (addr width : Nat) {k k' : Slot → Result} (h : ∀ r, SameOutcome (k r) (k' r)) :
    SameOutcome (admitAccess addr width k) (admitAccess addr width k') := by
  unfold admitAccess
  cases decodeAddress Config.deseBase addr with
  | outside | misaligned => exact .equal _
  | slot r => exact .ite (h r) (.equal _)

section access
variable {s : State} (x : Vector Subkey 16)

@[simp] theorem hostRead_withSk (r : Slot) : hostRead r (withSk x s) = hostRead r s := by
  cases r <;> rfl

@[simp] theorem value_withSk (v : Src) : v.value (withSk x s) = v.value s := by
  cases v <;> rfl

variable (hv : s.keyValid = false)
include hv

theorem issue_withSk (i : Instr) : SameButInvalidSchedule (issue i s) (issue i (withSk x s)) := by
  obtain ⟨hb, he⟩ | ⟨hb, hn, hk, he⟩ | ⟨hb, hk, he⟩ := issue_cases i s
  · rw [he, issue_busy (s := withSk x s) hb]
    exact ⟨hv, rfl⟩
  · rw [he, issue_noKey (s := withSk x s) hb hn hk]
    exact ⟨hv, rfl⟩
  · rw [he, issue_accept (s := withSk x s) hb hk]
    exact ⟨hv, rfl⟩

variable (hidle : s.busy = false → s.inflight = none)
include hidle

theorem hostWrite_sameOutcome (r : Slot) (v : Word) : SameOutcome (hostWrite r v s) (hostWrite r v (withSk x s)) := by
  cases hb : s.busy with
  | true =>
    rw [hostWrite_busy v r hb, hostWrite_busy (s := withSk x s) v r hb]
    exact .next_withSk x hv
  | false =>
    cases r with
    | key =>
      rw [hostWrite_key v hb, hostWrite_key (s := withSk x s) v hb]
      exact .next_withSk x rfl
    | din =>
      rw [hostWrite_din v hb, hostWrite_din (s := withSk x s) v hb]
      exact .next_withSk x hv
    | cmd =>
      rw [hostWrite_cmd v hb, hostWrite_cmd (s := withSk x s) v hb]
      cases hd : decode v with
      | error c =>
        rw [cmdWrite_error hd, cmdWrite_error hd]
        exact .next_withSk x hv
      | ok i =>
        rw [cmdWrite_ok hd (hidle hb), cmdWrite_ok (s := withSk x s) hd (hidle hb)]
        exact .hidden (issue_withSk x hv i)
    | dout | status | rsv5 | rsv6 | rsv7 =>
      rw [hostWrite_ignored v hb (by simp), hostWrite_ignored (s := withSk x s) v hb (by simp)]
      exact .next_withSk x hv

/-! ### Statements -/

/-- A statement reads the registers through `hostRead` alone and writes them through `hostWrite` alone. -/
theorem runStmt_sameOutcome (st : HostStmt) : SameOutcome (runStmt st s) (runStmt st (withSk x s)) := by
  cases st with
  | skip | seq | loopUntil => exact .next_withSk x hv
  | cmdVar => exact .equal _
  | wr r v =>
    rw [runStmt, runStmt, value_withSk]
    exact hostWrite_sameOutcome x hv hidle r _
  | rd n r =>
    rw [runStmt, runStmt, hostRead_withSk]
    exact .next_withSk x hv
  | memWrite addr width v =>
    rw [runStmt, runStmt, value_withSk]
    exact admitAccess_sameOutcome addr width fun r => hostWrite_sameOutcome x hv hidle r _
  | memRead n addr width =>
    refine admitAccess_sameOutcome addr width fun r => ?_
    rw [hostRead_withSk]
    exact .next_withSk x hv
  | cmd i =>
    rw [runStmt, runStmt]
    cases asm i with
    | some w => exact hostWrite_sameOutcome x hv hidle .cmd w
    | none => exact .equal _
  | assign n e =>
    rw [runStmt, runStmt]
    cases e.width with
    | none => exact .equal _
    | some w => exact .ite (.next_withSk x hv) (.equal _)
  | assert c =>
    rw [runStmt, runStmt]
    exact .ite (.ite (.next_withSk x hv) (.equal _)) (.equal _)
  | forLoop y a b body =>
    rw [runStmt, runStmt]
    exact .ite (.next_withSk x hv) (.ite (.next_withSk x hv) (.equal _))
  | untilCheck body c =>
    rw [runStmt, runStmt]
    exact .ite (.ite (.next_withSk x hv) (.next_withSk x hv)) (.equal _)

theorem hostStep_sameOutcome : SameOutcome (hostStep s) (hostStep (withSk x s)) := by
  cases hp : s.program with
  | nil =>
    rw [hostStep_nil hp, hostStep_nil (s := withSk x s) hp]
    exact .next_withSk x hv
  | cons st rest =>
    rw [hostStep_cons hp, hostStep_cons (s := withSk x s) hp]
    exact runStmt_sameOutcome (s := { s with program := rest }) x hv hidle st

end access

/-! ### Completions -/

/-- Of the commands that need no schedule, KEYLOAD and KEYCLR write the whole subkey file and the others do not
read it. -/
theorem effect_withSk {i : Instr} (hn : needsKey i = false) (f : InFlight) (s : State) (x : Vector Subkey 16) :
    effect i f (withSk x s) = effect i f s ∨
    (effect i f (withSk x s) = withSk x (effect i f s) ∧ (effect i f s).keyValid = s.keyValid) := by
  cases i with
  | keyload | keyclr => exact .inl rfl
  | enc | dec | ffunc | round | skread => simp [needsKey] at hn
  | _ => exact .inr ⟨rfl, rfl⟩

theorem exec_in_flight_sameOutcome {s : State} {f : InFlight} (x : Vector Subkey 16) (hv : s.keyValid = false)
    (hf : s.inflight = some f) (hw : f.cmd.wellFormed = true) (hn : needsKey f.cmd = false) :
    SameOutcome (exec f.cmd s) (exec f.cmd (withSk x s)) := by
  rw [exec_in_flight hf hw, exec_in_flight (s := withSk x s) hf hw]
  obtain he | ⟨he, hvalid⟩ := effect_withSk hn f s x
  · rw [he]
    exact .equal _
  · rw [he]
    exact .hidden ⟨hvalid.trans hv, rfl⟩

/-! ### Steps -/

/-- While KEY_VALID = 0 the command in flight is none that reads SK (R240 step 4). -/
theorem StateInvariant.needsKey_eq_false {s : State} (hi : StateInvariant s) (hv : s.keyValid = false) {f : InFlight}
    (hf : s.inflight = some f) : needsKey f.cmd = false := by
  obtain ⟨-, hkey⟩ := hi.admitted f hf
  exact Bool.eq_false_iff.2 fun hn => by simpa [hv] using hkey hn

theorem engineTurn_of_noHostTurn {s : State} {f : InFlight} (hd : resetDue s = false) (hf : s.inflight = some f)
    (h : s.program = [] ∨ s.wait = 0) : engineTurn s = true := by
  obtain hp | hw := h
  · simp [engineTurn, hd, hf, hp]
  · simp [engineTurn, hd, hf, hw]

/-- Whose step it is does not depend on SK, and each agent's step shows no difference. -/
theorem step_sameOutcome {s : State} (x : Vector Subkey 16) (hi : StateInvariant s) (hv : s.keyValid = false) :
    SameOutcome (step s) (step (withSk x s)) := by
  cases hd : resetDue s with
  | true =>
    rw [step_resetDue hd, step_resetDue (s := withSk x s) hd]
    exact .equal _
  | false =>
    cases hf : s.inflight with
    | none =>
      have hhost := hostStep_sameOutcome (s := { s with resets := tickResets s.resets }) x hv fun _ => hf
      rw [step_idle hd hf, step_idle (s := withSk x s) hd hf]
      exact .ite hhost (hhost.hostOrElse (.next_withSk (s := { s with resets := tickResets s.resets }) x hv))
    | some f =>
      have hengine := exec_in_flight_sameOutcome (s := { s with resets := tickResets s.resets }) x hv hf
        (hi.admitted f hf).1 (hi.needsKey_eq_false hv hf)
      by_cases hturn : s.program = [] ∨ s.wait = 0
      · rw [step_engineTurn (engineTurn_of_noHostTurn hd hf hturn) hf,
          step_engineTurn (engineTurn_of_noHostTurn (s := withSk x s) hd hf hturn) hf]
        exact hengine
      · push Not at hturn
        obtain ⟨hp, hw⟩ := hturn
        obtain ⟨n, hn⟩ := Nat.exists_eq_succ_of_ne_zero hw
        have hhost := hostStep_sameOutcome (s := { s with wait := n, resets := tickResets s.resets }) x hv fun hb =>
          hi.inflight_none hb
        rw [step_hostTurn hd hf hn hp, step_hostTurn (s := withSk x s) hd hf hn hp]
        exact hhost.hostOrElse hengine

/-- What is seen of one run is seen of the other. -/
theorem SameOutcome.of_next {s : State} {r : Result} (h : SameOutcome (.next s) r) :
    ∃ t, r = .next t ∧ (t = s ∨ SameButInvalidSchedule s t) := by
  cases h with
  | equal => exact ⟨s, rfl, .inl rfl⟩
  | hidden h => exact ⟨_, rfl, .inr h⟩

theorem SameOutcome.of_fault {e : Fault} {r : Result} (h : SameOutcome (.fault e) r) : r = .fault e := by
  cases h
  rfl

theorem SameOutcome.of_refused {e : Refusal} {r : Result} (h : SameOutcome (.refused e) r) : r = .refused e := by
  cases h
  rfl

/-- Settles O49: the reads by `hostRead_withSk`, the steps by `step_sameOutcome`. -/
theorem invalidScheduleIsNotObservable : Obligations.InvalidScheduleIsNotObservable := by
  intro s t hi ⟨hv, (ht : t = withSk t.sk s)⟩
  have hsame := step_sameOutcome t.sk hi hv
  rw [← ht] at hsame
  refine ⟨fun r => ?_, fun s' h => (h ▸ hsame).of_next, fun e h => (h ▸ hsame).of_fault,
    fun e h => (h ▸ hsame).of_refused⟩
  rw [ht, hostRead_withSk]

end Sys2Proof.Machine
end

section
/-! `RUN m` ends for every latency (R105, R106, R244): the host polls while the command is in flight, the engine completes
it, and one more poll ends the wait. -/

namespace Sys2Proof.Machine

/-! ### Runs -/

/-- Finitely many steps lead from `s` to `t`. -/
def Reaches (s t : State) : Prop := ∃ k, Host.Core.run core k s = .next t

theorem Reaches.refl (s : State) : Reaches s s := ⟨0, rfl⟩

theorem run_succ {s t : State} (h : step s = .next t) (k : Nat) :
    Host.Core.run core (k + 1) s = Host.Core.run core k t := by
  simp only [Host.Core.run, show core.step s = .next t from h]

theorem Reaches.head {s t u : State} (h : step s = .next t) (hr : Reaches t u) : Reaches s u := by
  obtain ⟨k, hk⟩ := hr
  exact ⟨k + 1, (run_succ h k).trans hk⟩

theorem Reaches.trans {s t u : State} (hst : Reaches s t) (htu : Reaches t u) : Reaches s u := by
  obtain ⟨k, hk⟩ := hst
  induction k generalizing s with
  | zero =>
    cases hk
    exact htu
  | succ k ih =>
    cases hs : step s with
    | next s' => exact .head hs (ih ((run_succ hs k).symm.trans hk))
    | fault | refused =>
      simp only [Host.Core.run, show core.step s = _ from hs] at hk
      cases hk

/-- A statement of an idle host, no reset being scheduled, then the rest of the run. -/
theorem Reaches.runStmt {s t u : State} {st : HostStmt} {rest : List HostStmt} (hp : s.program = st :: rest)
    (hf : s.inflight = none) (hr : s.resets = []) (h : runStmt st { s with program := rest } = .next t)
    (htu : Reaches t u) : Reaches s u :=
  .head ((step_runStmt_idle_noResets hp hf hr).trans h) htu

/-! ### The conditions of WAIT and RUN -/

theorem bitIs_wellFormed (n : Fin 8) {b : Nat} (v : Word) (hb : b < 64) : (bitIs n b v).wellFormed = true := by
  simp [bitIs, Cond.wellFormed, HExpr.width, hb]

/-- A slice of one bit is the number 0 or 1. -/
theorem slice_bit_eval (n : Fin 8) (b : Nat) (h : Vector Word 8) :
    (HExpr.slice (.var n) b b).eval h = (h[n].getLsbD b).toNat := by
  rw [HExpr.eval, HExpr.eval, Nat.sub_self, BitVec.getLsbD, Nat.toNat_testBit, Nat.shiftRight_eq_div_pow,
    Nat.zero_add, Nat.pow_one]

theorem bitIs_zero_eval (n : Fin 8) (b : Nat) (h : Vector Word 8) : (bitIs n b 0).eval h = !h[n].getLsbD b := by
  rw [bitIs, Cond.eval, slice_bit_eval]
  cases h[n].getLsbD b <;> rfl

theorem bitIs_one_eval (n : Fin 8) (b : Nat) (h : Vector Word 8) : (bitIs n b 1).eval h = h[n].getLsbD b := by
  rw [bitIs, Cond.eval, slice_bit_eval]
  cases h[n].getLsbD b <;> rfl

/-- The end of `RUN` (R106). -/
def assertDone : HostStmt := .assert (bitIs 7 1 1)

/-- The end of one poll of `WAIT` (R105). -/
def pollCheck : HostStmt := .untilCheck (.rd 7 .status) (bitIs 7 0 0)

/-- A poll that has read BUSY = 1 is followed by another. -/
theorem runStmt_pollCheck_busy {s : State} (h : s.hostVars[7].getLsbD 0 = true) :
    runStmt pollCheck s = .next { s with program := .rd 7 .status :: pollCheck :: s.program } := by
  have heval : (bitIs 7 0 0).eval s.hostVars = false := by rw [bitIs_zero_eval]; exact congrArg not h
  rw [pollCheck, runStmt, if_pos (bitIs_wellFormed 7 0 (by decide)), heval]
  rfl

/-- A poll that has read BUSY = 0 ends `WAIT`. -/
theorem runStmt_pollCheck_idle {s : State} (h : s.hostVars[7].getLsbD 0 = false) : runStmt pollCheck s = .next s := by
  have heval : (bitIs 7 0 0).eval s.hostVars = true := by rw [bitIs_zero_eval]; exact congrArg not h
  rw [pollCheck, runStmt, if_pos (bitIs_wellFormed 7 0 (by decide)), heval]
  rfl

theorem runStmt_assertDone {s : State} (h : s.hostVars[7].getLsbD 1 = true) : runStmt assertDone s = .next s := by
  have heval : (bitIs 7 1 1).eval s.hostVars = true := by rw [bitIs_one_eval]; exact h
  rw [assertDone, runStmt_assert s (bitIs_wellFormed 7 1 (by decide)), heval]
  rfl

/-! ### Polling -/

/-- What can be left of the program in the course of `RUN` after its CMD write, the host's variables being `h`. A host
about to look at h7 has read BUSY = 1 there, as it does while the command is in flight. -/
inductive Polling (rest : List HostStmt) (h : Vector Word 8) : List HostStmt → Prop
  | start : Polling rest h (.seq .wait assertDone :: rest)
  | wait : Polling rest h (.wait :: assertDone :: rest)
  | read : Polling rest h (.rd 7 .status :: pollCheck :: assertDone :: rest)
  | check (hbusy : h[7].getLsbD 0 = true) : Polling rest h (pollCheck :: assertDone :: rest)

/-- The read of a poll shows BUSY in bit 0 of h7 and DONE in bit 1 (R36). -/
theorem h7_busy (h : Vector Word 8) (s : State) : (h.set 7 (hostRead .status s))[7].getLsbD 0 = s.busy := by
  rw [Vector.getElem_set_self]
  exact statusWord_busy s

theorem h7_done (h : Vector Word 8) (s : State) : (h.set 7 (hostRead .status s))[7].getLsbD 1 = s.done := by
  rw [Vector.getElem_set_self]
  exact statusWord_done s

section polling
variable {rest : List HostStmt}

/-- While the command is in flight the host polls on: its step changes its program and h7 only. -/
theorem polling_hostStep {u : State} (hb : u.busy = true) (hp : Polling rest u.hostVars u.program) :
    ∃ p h, Polling rest h p ∧ (∀ v, h.set 7 v = u.hostVars.set 7 v) ∧
      hostStep u = .next (reschedule u p h u.wait u.resets) := by
  generalize hprog : u.program = p at hp
  cases hp with
  | start => exact ⟨_, _, .wait, fun _ => rfl, hostStep_cons hprog⟩
  | wait => exact ⟨_, _, .read, fun _ => rfl, hostStep_cons hprog⟩
  | read =>
    exact ⟨_, u.hostVars.set 7 (hostRead .status u), .check ((h7_busy _ u).trans hb), fun v => by simp,
      hostStep_cons hprog⟩
  | check hbusy =>
    exact ⟨_, _, .read, fun _ => rfl,
      (hostStep_cons hprog).trans (runStmt_pollCheck_busy (s := { u with program := assertDone :: rest }) hbusy)⟩

/-- Whatever the latency, the host polls until the engine completes the command in flight. -/
theorem polling_completes {f : InFlight} (hw : f.cmd.wellFormed = true) {u : State} (hb : u.busy = true)
    (hf : u.inflight = some f) (hr : u.resets = []) (hp : Polling rest u.hostVars u.program) :
    ∃ p h w, Polling rest h p ∧ (∀ v, h.set 7 v = u.hostVars.set 7 v) ∧
      Reaches u (complete (effect f.cmd f (reschedule u p h w []))) := by
  have hd : resetDue u = false := by simp [resetDue, hr]
  have htick : tickResets u.resets = [] := by simp [hr, tickResets]
  induction hn : u.wait generalizing u with
  | zero =>
    have hstep := step_engineTurn (engineTurn_of_noHostTurn hd hf (.inr hn)) hf
    rw [exec_in_flight (s := { u with resets := tickResets u.resets }) hf hw, htick] at hstep
    exact ⟨u.program, u.hostVars, u.wait, hp, fun _ => rfl, .head hstep (.refl _)⟩
  | succ n ih =>
    have hne : u.program ≠ [] := by
      intro hnil
      rw [hnil] at hp
      cases hp
    have hstep := step_hostTurn hd hf hn hne
    obtain ⟨p, h, hp', hvars, hhost⟩ :=
      polling_hostStep (u := { u with wait := n, resets := tickResets u.resets }) hb hp
    rw [hhost] at hstep
    obtain ⟨q, h', w, hq, hvars', hrun⟩ := ih (u := reschedule u p h n []) hb hf rfl hp' rfl rfl rfl
    refine ⟨q, h', w, hq, fun v => (hvars' v).trans (hvars v), .head ?_ hrun⟩
    rw [hstep, htick]
    rfl

/-- After the completion one more poll reads BUSY = 0 and DONE = 1, and `RUN` is over. -/
theorem polling_ends {t : State} (ht : Idle t) (hdone : t.done = true) (hr : t.resets = [])
    (hp : Polling rest t.hostVars t.program) :
    Reaches t { t with program := rest, hostVars := t.hostVars.set 7 (hostRead .status t) } := by
  obtain ⟨hb, hf⟩ := ht
  have hread : Reaches { t with program := .rd 7 .status :: pollCheck :: assertDone :: rest }
      { t with program := rest, hostVars := t.hostVars.set 7 (hostRead .status t) } :=
    .runStmt rfl hf hr rfl <|
    .runStmt rfl hf hr (runStmt_pollCheck_idle ((h7_busy _ t).trans hb)) <|
    .runStmt rfl hf hr (runStmt_assertDone ((h7_done _ t).trans hdone)) <|
    .refl _
  generalize hprog : t.program = p at hp
  cases hp with
  | start => exact .runStmt hprog hf hr rfl (.runStmt rfl hf hr rfl hread)
  | wait => exact .runStmt hprog hf hr rfl hread
  | read =>
    rw [← hprog] at hread
    exact hread
  | check hbusy => exact .runStmt hprog hf hr (runStmt_pollCheck_busy hbusy) hread

end polling

/-! ### RUN -/

/-- What a command writes to DOUT is a function of its operands, of SK and of DOUT. -/
theorem effect_dout_congr (i : Instr) (f : InFlight) {s t : State} (hsk : s.sk = t.sk) (hdout : s.dout = t.dout) :
    (effect i f s).dout = (effect i f t).dout := by
  cases i <;> simp [effect, hsk, hdout]

theorem step_cmd_accepted {s : State} {i : Instr} {rest : List HostStmt} (hs : Idle s) (hw : i.wellFormed = true)
    (hk : needsKey i = true → s.keyValid = true) (hr : s.resets = []) (hp : s.program = .cmd i :: rest) :
    step s = .next (accept i (clearDone { s with program := rest })) := by
  have hd : resetDue s = false := by simp [resetDue, hr]
  have htick : tickResets s.resets = s.resets := by simp [hr, tickResets]
  rw [step_commandWord (v := .lit (encode i)) hs hd rfl (decode_encode hw) (.inr (.inr hp)), htick,
    exec_at_write (s := { s with program := rest }) hw hs.2, issue_accept (s := { s with program := rest }) hs.1 hk]

/-- An idle machine accepts `RUN`'s command and comes to its completion polling. -/
theorem run_completes {s : State} {i : Instr} {rest : List HostStmt} (hs : Idle s) (hw : i.wellFormed = true)
    (hk : needsKey i = true → s.keyValid = true) (hr : s.resets = []) (hp : s.program = .run i :: rest) :
    ∃ p h w, Polling rest h p ∧ (∀ v, h.set 7 v = s.hostVars.set 7 v) ∧
      Reaches s (complete (effect i { cmd := i, key := s.key, din := s.din }
        (reschedule (accept i (clearDone s)) p h w []))) := by
  have hwrite := step_cmd_accepted (s := { s with program := .cmd i :: .seq .wait assertDone :: rest }) hs hw hk hr rfl
  obtain ⟨p, h, w, hpoll, hvars, hrun⟩ := polling_completes (rest := rest)
    (u := accept i (clearDone { s with program := .seq .wait assertDone :: rest })) hw rfl rfl hr .start
  exact ⟨p, h, w, hpoll, hvars, .runStmt hp hs.2 hr rfl (.head hwrite hrun)⟩

/-- Settles O50: the acceptance, the polling up to the completion, and the last poll. -/
theorem runCompletesForEveryLatency : Obligations.RunCompletesForEveryLatency := by
  intro s i rest _ hs hw hk hr hp
  obtain ⟨p, h, w, hpoll, hvars, hrun⟩ := run_completes hs hw hk hr hp
  obtain ⟨k, hk⟩ := hrun.trans (polling_ends ⟨rfl, rfl⟩ rfl (by simp) (by simpa using hpoll))
  refine ⟨k, _, _, hk, exec_of_inFlightIs (key := s.key) (din := s.din) hw rfl, rfl, ⟨rfl, rfl⟩, rfl, by simp,
    by simp, by simp, effect_dout_congr i _ rfl rfl, by simp [effect_sk], by simp [effect_keyValid],
    by simp [effect_err], ?_⟩
  rw [complete_hostVars, effect_hostVars, reschedule_hostVars]
  exact hvars _

end Sys2Proof.Machine
end
